-- ==== Sys2Proof/Word.lean ====
section
/-! DEFINITION. The word types of rs_chip8 CORE (00_scope.md R9, R11, R12; 10_state.md R30, R39, R43). -/

namespace Sys2Proof

/-- A byte: a memory cell, the immediate NN, the random byte (R14, R70, R102, R416). -/
abbrev Byte := BitVec 8

/-- An instruction word, 16 bits (R102). -/
abbrev Word := BitVec 16

/-- A nibble of an instruction word: the fields F, X, Y and N (R102). -/
abbrev Nibble := BitVec 4

/-- The 12-bit address immediate NNN (R102). -/
abbrev Addr := BitVec 12

/-- The general registers, V0 first (R30): `NUM_V` unsigned numbers of V's width (R9, R11, log 1). -/
abbrev RegFile := List Nat

/-- The return-address entries, S[0] first (R39): `STACK_DEPTH` unsigned numbers of an entry's width (R9, R11,
log 1). -/
abbrev StackFile := List Nat

/-- Rows of one-bit pixels, row 0 first, true meaning on (R43); `DISP_H` rows of `DISP_W` pixels (R9, log 1). -/
abbrev Framebuffer := List (List Bool)

/-- The pressed state of the 16 keys: bit k is set when key k is pressed (60_exceptions.md R417). -/
abbrev KeySet := BitVec 16

/-- The index of VF, the flag register (R31). -/
abbrev flagReg : Nibble := 0xF#4

end Sys2Proof
end

