-- ==== Sys2Proof/Config.lean ====
section
/-! DEFINITION. The implementation parameters of 00_scope.md R9 as the session's configuration, and the free values. -/

namespace Sys2Proof

/-- `QUIRK_SHIFT` (R9): the source register of 8XY6 and 8XYE (R258, R260; D8). ShiftVY is PRESUMED (log 17). -/
inductive QuirkShift where
  | shiftVX
  | shiftVY
  deriving DecidableEq, Repr

/-- `QUIRK_JUMP` (R9): the offset register of BNNN (R207; D9). JumpVX is PRESUMED (log 17). -/
inductive QuirkJump where
  | jumpV0
  | jumpVX
  deriving DecidableEq, Repr

/-- `VF_ALIAS` (R9): whether a flag-setting word that names VF as an operand runs or is refused (R264, R265; D5). -/
inductive VfAlias where
  | sequential
  | fault
  deriving DecidableEq, Repr

/-- `RESET_FILL` (R9): what construction leaves where the source gives no value (R50; D1, D3). -/
inductive ResetFill where
  | zero
  | unknown
  deriving DecidableEq, Repr

/-- `QUIRK_LOADSTORE_I` (R9): whether FX55 and FX65 move I (R370, R371; D22). -/
inductive QuirkLoadStoreI where
  | unchanged
  | increment
  deriving DecidableEq, Repr

/-- The named parameters of R9, each with the value that this hardware takes, or the default, as its default
(I1, D25). They are fixed for the session: no instruction and no host operation writes them (R10, R49; logs 1
and 2). `FONT` is the argument of `construct`. -/
structure Config where
  memSize : Nat := 4096        -- MEM_SIZE, bytes
  loadOffset : Nat := 0x200    -- LOAD_OFFSET
  fontBase : Nat := 0x000      -- FONT_BASE
  fontLen : Nat := 80          -- FONT_LEN, bytes
  numV : Nat := 16             -- NUM_V, registers
  vWidth : Nat := 8            -- V register width, bits
  iWidth : Nat := 16           -- I width, bits
  pcWidth : Nat := 16          -- pc width, bits
  stackDepth : Nat := 16       -- STACK_DEPTH, entries
  stackWidth : Nat := 16       -- stack entry width, bits
  dispW : Nat := 64            -- DISP_W, columns
  dispH : Nat := 32            -- DISP_H, rows
  timerWidth : Nat := 8        -- timer width, bits
  tickHz : Nat := 60           -- timer tick rate, Hz: the host's convention, which no rule reads (R9, R412)
  quirkShift : QuirkShift := .shiftVX
  quirkJump : QuirkJump := .jumpV0
  vfAlias : VfAlias := .sequential
  resetFill : ResetFill := .zero
  extEF : Bool := false
  quirkLoadStoreI : QuirkLoadStoreI := .unchanged
  deriving DecidableEq, Repr

/-- A value that pc may hold: `0` to `MEM_SIZE - 2` (R15, R33). -/
abbrev Config.pcOk (cfg : Config) (v : Nat) : Prop := v + 2 ≤ cfg.memSize

/-- The number of bytes that Construct can load, `MEM_SIZE - LOAD_OFFSET` (R503). -/
def Config.programMax (cfg : Config) : Nat := cfg.memSize - cfg.loadOffset

/-- The parameters describe a machine on which the rules make sense: pc and a stack entry reach all of memory
(R33, R39), V holds a byte (R250, R262, R371) and I an address NNN (R261), the font lies below the load offset
(R501), every nibble names a register (R103), and the screen is not empty (R302). The values of R9 do (log 1). -/
structure Config.Wf (cfg : Config) : Prop where
  pcWidth : cfg.memSize ≤ 2 ^ cfg.pcWidth
  stackWidth : cfg.memSize ≤ 2 ^ cfg.stackWidth
  vWidth : 8 ≤ cfg.vWidth
  iWidth : 12 ≤ cfg.iWidth
  loadOffset : cfg.pcOk cfg.loadOffset
  font : cfg.fontBase + cfg.fontLen ≤ cfg.loadOffset
  numV : 16 ≤ cfg.numV
  dispW : 0 < cfg.dispW
  dispH : 0 < cfg.dispH

/-- The host operations that change the machine between constructions (60_exceptions.md R414). -/
inductive HostOp where
  | cycle
  | tickDelay
  | tickSound
  | shutdown
  deriving DecidableEq, Repr, Inhabited

/-- What a session's registers hold where the spec leaves the value open: at construction under
`RESET_FILL = Unknown` (R50), and after a fatal abort (R402). `fittedTo` cuts it to the session's sizes and
widths. -/
structure Config.Residue where
  v : RegFile
  i : Nat
  pc : Nat
  sp : Nat
  stack : StackFile
  dt : Nat
  st : Nat
  fb : Framebuffer
  deriving Inhabited

/-- The host operation that the n-th open choice of the host is: any of them (R412, R510, R511; log 9). -/
opaque Config.hostChoice : Nat → HostOp

/-- The random byte of the n-th open draw: any byte (R416, I6; log 7). -/
opaque Config.hostRandom : Nat → Byte

/-- The key state of the n-th open poll: any pressed set (R417; log 8). -/
opaque Config.hostKeys : Nat → KeySet

/-- The registers, stack, timers and framebuffer after an abort: any contents (R402, I7; log 10). -/
opaque Config.afterAbort : Nat → Config.Residue

/-- Byte `a` of memory after an abort: any byte (R402, I7; log 10). -/
opaque Config.afterAbortByte : Nat → Nat → Byte

/-- The registers, stack, timers and framebuffer that construction leaves under `RESET_FILL = Unknown`:
any contents (R50, I3; log 6). The argument numbers the construction. -/
opaque Config.atPowerOn : Nat → Config.Residue

/-- Byte `a` of the memory that construction does not write, under `RESET_FILL = Unknown` (R50, I3; log 6). -/
opaque Config.atPowerOnByte : Nat → Nat → Byte

end Sys2Proof
end

