-- ==== Sys2Proof/Machine/Memory.lean ====
section
/-! DEFINITION. Memory as a canonical list of cells (20_memory.md R70 to R78): what an unlisted address reads as, read, write, fill, the canonical form. -/

namespace Sys2Proof.Machine

/-- Memory: the listed cells, addresses strictly rising, none equal to what its address reads as when
unlisted (R70). -/
abbrev Memory := List Host.Cell

/-- The default `FONT`, glyph d at bytes 5*d to 5*d + 4 (R79; 93_implementation_defined.md I9; PRESUMED,
general knowledge, log 5). -/
def defaultFont : List Byte :=
  [0xF0#8, 0x90#8, 0x90#8, 0x90#8, 0xF0#8, 0x20#8, 0x60#8, 0x20#8, 0x20#8, 0x70#8] ++
  [0xF0#8, 0x10#8, 0xF0#8, 0x80#8, 0xF0#8, 0xF0#8, 0x10#8, 0xF0#8, 0x10#8, 0xF0#8] ++
  [0x90#8, 0x90#8, 0xF0#8, 0x10#8, 0x10#8, 0xF0#8, 0x80#8, 0xF0#8, 0x10#8, 0xF0#8] ++
  [0xF0#8, 0x80#8, 0xF0#8, 0x90#8, 0xF0#8, 0xF0#8, 0x10#8, 0x20#8, 0x40#8, 0x40#8] ++
  [0xF0#8, 0x90#8, 0xF0#8, 0x90#8, 0xF0#8, 0xF0#8, 0x90#8, 0xF0#8, 0x10#8, 0xF0#8] ++
  [0xF0#8, 0x90#8, 0xF0#8, 0x90#8, 0x90#8, 0xE0#8, 0x90#8, 0xE0#8, 0x90#8, 0xE0#8] ++
  [0xF0#8, 0x80#8, 0x80#8, 0x80#8, 0xF0#8, 0xE0#8, 0x90#8, 0x90#8, 0x90#8, 0xE0#8] ++
  [0xF0#8, 0x80#8, 0xF0#8, 0x80#8, 0xF0#8, 0xF0#8, 0x80#8, 0xF0#8, 0x80#8, 0x80#8]

/-- What an address with no listed cell reads as: the contents after construction with the default font
and no program, that is the font at 0x000 to 0x04F and 0x00 elsewhere (R78, R501; D3; log 5). -/
def Memory.unlisted (a : Nat) : Byte := defaultFont.getD a 0#8

/-- The byte at address `a`. -/
def Memory.read (m : Memory) (a : Nat) : Byte :=
  match m with
  | [] => Memory.unlisted a
  | (b, v) :: rest => if a = b then v else Memory.read rest a

/-- Put a cell into its place, or take the address's cell out when the value is the unlisted one. -/
def Memory.write (m : Memory) (a : Nat) (v : Byte) : Memory :=
  match m with
  | [] => if v = Memory.unlisted a then [] else [(a, v)]
  | (b, u) :: rest =>
    if a < b then (if v = Memory.unlisted a then (b, u) :: rest else (a, v) :: (b, u) :: rest)
    else if a = b then (if v = Memory.unlisted a then rest else (a, v) :: rest)
    else (b, u) :: Memory.write rest a v

/-- The bytes of a list, written from address `a` upward. -/
def Memory.writeBytes (m : Memory) (a : Nat) : List Byte → Memory
  | [] => m
  | v :: vs => Memory.writeBytes (m.write a v) (a + 1) vs

/-- The memory whose byte `a` is `f a`, for every address below `n`. Irreducible, so that no definitional
check walks the addresses: its laws are `wf_fill` and `read_fill`. -/
@[irreducible] def Memory.fill (n : Nat) (f : Nat → Byte) : Memory :=
  ((List.range n).filter (fun a => f a != Memory.unlisted a)).map (fun a => (a, f a))

/-- The canonical form above an address: addresses rise strictly from `lo`, and no cell holds the unlisted
value. -/
def Memory.wfFrom (lo : Nat) : Memory → Bool
  | [] => true
  | (a, v) :: rest => decide (lo ≤ a) && v != Memory.unlisted a && Memory.wfFrom (a + 1) rest

/-- The canonical form of memory. -/
def Memory.wf (m : Memory) : Bool := Memory.wfFrom 0 m

/-- Every listed address is below `n`: memory has no cell outside an address space of `n` bytes (R70). -/
def Memory.within (n : Nat) (m : Memory) : Bool := m.all (fun c => decide (c.1 < n))

end Sys2Proof.Machine
end

