-- ==== Sys2Proof/Machine/State.lean ====
section
/-! DEFINITION. The state of rs_chip8 CORE (10_state.md R30 to R50), its conditions (60_exceptions.md R401, R403), and reset. -/

namespace Sys2Proof.Machine

/-- The two timers (R42). -/
inductive Timer where
  | delay   -- DT
  | sound   -- ST
  deriving DecidableEq, Repr

/-- A fatal condition with the information it records (R401). -/
inductive Fatal where
  | pcOutOfRange (v : Nat)         -- the value that SetPC refused
  | stackUnderflow (a : Nat)       -- the address of the RET
  | memOutOfBounds (a : Nat)       -- the address accessed
  | fontMalformed                  -- no information
  | programTooLarge (len : Nat)    -- the program's length
  deriving DecidableEq, Repr

/-- The numeric code of a fatal condition, reported with the `Aborted` status (R401; D16). -/
def Fatal.code : Fatal → Nat
  | .pcOutOfRange _ => 1
  | .stackUnderflow _ => 2
  | .memOutOfBounds _ => 3
  | .fontMalformed => 4
  | .programTooLarge _ => 5

/-- The run status (R46). -/
inductive RunStatus where
  | running
  | aborted (f : Fatal)
  deriving DecidableEq, Repr

/-- An event of the report log: a reported condition with its information (R45, R403; D27). -/
inductive Report where
  | stackOverflow (a : Nat) (w : Word)
  | unimplementedOpcode (a : Nat) (w : Word)
  | timerIdle (t : Timer)
  deriving DecidableEq, Repr

/-- The numeric code of a reported condition (R403; D16). -/
def Report.code : Report → Nat
  | .stackOverflow _ _ => 1
  | .unimplementedOpcode _ _ => 2
  | .timerIdle _ => 3

/-- Why a step can stop with a fault. Both say that the host has broken a duty of 70_reset_and_hazards.md
R511, and neither is raised by an instruction (log 11). -/
inductive Fault where
  /-- Raised by `step` in an aborted session: no later cycle or tick runs (R402). Safe: the machine stops
  where the spec allows no operation. -/
  | sessionAborted (f : Fatal)
  /-- Raised by `step` after Shutdown: the session has ended (R414, R509). Safe: the machine stops where
  the spec allows no operation. -/
  | sessionEnded
  deriving DecidableEq, Repr

/-- Why an instruction can be refused: the spec's own `refuse` (R16, R372), and an arm of exec that has no
meaning. -/
inductive Refusal where
  /-- Raised by an arm of `exec` that has no meaning yet (none in this model). Safe. -/
  | notModelled (mnemonic : String)
  /-- Raised by a flag-setting instruction that names VF as an operand, with `VF_ALIAS = Fault`
  (R264). Safe: it errs toward unprovable (log 15). -/
  | vfOperand
  /-- `KEY_INDEX_RANGE`, raised by SKP and SKNP when V[X] is above 15 (R361, R362, R372). Safe: it errs
  toward unprovable (log 16). -/
  | keyIndexRange
  deriving DecidableEq, Repr

/-- The machine. The first group is the spec's architectural state (R30 to R46), `cfg` the session's
parameters (R9, R10), and the last group is the MODEL's own: what the host supplies, and the number of
the next free value (logs 7 to 9). V, I, pc, the stack entries and the timers are unsigned numbers (R11) that
every write keeps to the width that `cfg` gives them (`keepBits`, `State.InWidths`; R9, log 1). -/
structure State where
  v : RegFile                -- V0 to VF, NUM_V registers (R30, R31)
  i : Nat                    -- I (R38)
  pc : Nat                   -- pc (R33)
  sp : Nat                   -- SP, 0 to STACK_DEPTH (R40)
  stack : StackFile          -- S[0] upward, STACK_DEPTH entries (R39)
  dt : Nat                   -- DT (R42)
  st : Nat                   -- ST (R42)
  fb : Framebuffer           -- FB[y][x], DISP_H rows of DISP_W pixels (R43)
  mem : Memory               -- M (R70)
  status : RunStatus         -- the run status (R46)
  reports : List Report      -- the report log, oldest first (R45)
  ended : Bool               -- the host has called Shutdown (R414)
  cfg : Config               -- the session's parameters (R9, R10)
  schedule : List HostOp     -- host operations still to come, oldest first (R414, R510; log 9)
  randoms : List Byte        -- the host's next answers to draw_random (R416; log 7)
  keyPolls : List KeySet     -- the host's next answers to key polls (R417; log 8)
  free : Nat                 -- the number of the next free value (log 7)
  deriving DecidableEq, Repr

/-- The framebuffer with every pixel off (R300), `DISP_H` rows of `DISP_W` pixels. -/
def blankFb (cfg : Config) : Framebuffer := List.replicate cfg.dispH (List.replicate cfg.dispW false)

/-- The machine with every register, entry, timer and pixel at the value of R50, memory with nothing listed, pc
at `LOAD_OFFSET`, Running, and nothing decided by the host (R50, R501; logs 3, 4, 9). -/
def State.blank (cfg : Config) : State where
  v := List.replicate cfg.numV 0
  i := 0
  pc := cfg.loadOffset
  sp := 0
  stack := List.replicate cfg.stackDepth 0
  dt := 0
  st := 0
  fb := blankFb cfg
  mem := []
  status := .running
  reports := []
  ended := false
  cfg := cfg
  schedule := []
  randoms := []
  keyPolls := []
  free := 0

/-- The machine right after construction with the default font, no program and the parameters of R9 (R50,
R501; logs 3 to 5): what `construct` gives for them. -/
def State.reset : State := State.blank {}

end Sys2Proof.Machine
end

