-- ==== Sys2Proof/Machine/Table.lean ====
section
/-! DEFINITION. Registers whose width and tables whose size are parameters of the session (R9; log 1): keeping a number to a width, writing an entry, cutting a list to a size. An entry is read with `List.getD`. -/

namespace Sys2Proof.Machine

/-- The number that `w` bits hold of `n`: `n mod 2^w`, with w = 8 the spec's u8 (R12; log 1). -/
def keepBits (w n : Nat) : Nat := n % 2 ^ w

/-- The table with entry `k` replaced by `x`. In a table that has no entry `k` (in no state of a run, as the
invariant says) it is made long enough with `d`, so that what was written is read back in every state. -/
def tableSet {α : Type} (d : α) (k : Nat) (x : α) (t : List α) : List α :=
  match k, t with
  | 0, [] => [x]
  | 0, _ :: rest => x :: rest
  | k + 1, [] => d :: tableSet d k x []
  | k + 1, c :: rest => c :: tableSet d k x rest

/-- The list cut to `n` entries, made long enough with `d`. -/
def fit {α : Type} (n : Nat) (d : α) (t : List α) : List α := (List.range n).map (fun k => t.getD k d)

/-- Open contents in the sizes and widths of the session: `NUM_V` registers, SP at most `STACK_DEPTH`,
`STACK_DEPTH` entries, `DISP_H` rows of `DISP_W` pixels, every number of its register's width. -/
def fittedTo (cfg : Config) (r : Config.Residue) : Config.Residue :=
  { r with
    v := (fit cfg.numV 0 r.v).map (keepBits cfg.vWidth)
    i := keepBits cfg.iWidth r.i
    pc := keepBits cfg.pcWidth r.pc
    sp := r.sp % (cfg.stackDepth + 1)
    stack := (fit cfg.stackDepth 0 r.stack).map (keepBits cfg.stackWidth)
    dt := keepBits cfg.timerWidth r.dt
    st := keepBits cfg.timerWidth r.st
    fb := (fit cfg.dispH [] r.fb).map (fit cfg.dispW false) }

end Sys2Proof.Machine
end

