-- ==== Sys2Proof/Machine/Ops.lean ====
section
/-! DEFINITION. The named operations over registers, pc, stack, memory, framebuffer, log and host inputs (00_scope.md R13 to R17), and raising a condition (60_exceptions.md R402, R404). -/

namespace Sys2Proof.Machine

/-! ## Registers (R13, R30) -/

/-- `V[x]`. -/
def State.readV (x : Nibble) (s : State) : Nat := s.v.getD x.toNat 0

/-- `V[x] <- n`, kept to the width of V (R9, R30). -/
def State.writeV (x : Nibble) (n : Nat) (s : State) : State :=
  { s with v := tableSet 0 x.toNat (keepBits s.cfg.vWidth n) s.v }

/-- `V[F] <- 1` or `V[F] <- 0` (R37). -/
def State.setFlag (c : Bool) (s : State) : State := s.writeV flagReg (if c then 1 else 0)

/-- `I <- n`, kept to the width of I (R9, R38: never range-checked). -/
def State.writeI (n : Nat) (s : State) : State := { s with i := keepBits s.cfg.iWidth n }

/-- The value of a timer (R42). -/
def State.timer (t : Timer) (s : State) : Nat :=
  match t with
  | .delay => s.dt
  | .sound => s.st

/-- `T <- n` for a timer T, kept to the width of a timer (R9, R42). -/
def State.writeTimer (t : Timer) (n : Nat) (s : State) : State :=
  match t with
  | .delay => { s with dt := keepBits s.cfg.timerWidth n }
  | .sound => { s with st := keepBits s.cfg.timerWidth n }

/-- Replace the framebuffer (R43). -/
def State.putFb (fb : Framebuffer) (s : State) : State := { s with fb := fb }

/-! ## Conditions (R16) -/

/-- `raise Fatal(reason, info)`: the status becomes `Aborted`, and what R402 calls unspecified (registers,
memory, stack, timers, framebuffer) becomes free (log 10). The report log, the configuration and what
the host supplies stay. -/
def State.raiseFatal (f : Fatal) (s : State) : State :=
  let r := fittedTo s.cfg (Config.afterAbort s.free)
  { s with
    status := .aborted f
    v := r.v
    i := r.i
    pc := r.pc
    sp := r.sp
    stack := r.stack
    dt := r.dt
    st := r.st
    fb := r.fb
    mem := Memory.fill s.cfg.memSize (Config.afterAbortByte s.free)
    free := s.free + 1 }

/-- `report(reason, info)`: one event at the end of the log, nothing else (R16, R404). -/
def State.report (r : Report) (s : State) : State := { s with reports := s.reports ++ [r] }

/-- The state after operations that may raise a fatal condition: it is raised in `s`, the state in which
the operation began, and nothing after it runs (R16, R402). -/
def orAbort (s : State) : Except Fatal State → State
  | .ok t => t
  | .error f => s.raiseFatal f

/-! ## Program counter (R15, R33 to R36) -/

/-- `pc <- v`, the last line of SetPC, kept to the width of pc (R9). -/
def State.putPc (v : Nat) (s : State) : State := { s with pc := keepBits s.cfg.pcWidth v }

/-- `SetPC(v)` (R15), the one way to write pc: above `MEM_SIZE - 2` it is fatal. -/
def State.trySetPC (v : Nat) (s : State) : Except Fatal State :=
  if s.cfg.pcOk v then .ok (s.putPc v) else .error (.pcOutOfRange v)

/-- `SetPC(v)` as the last operation of an instruction. -/
def State.setPC (v : Nat) (s : State) : State := orAbort s (s.trySetPC v)

/-- The address `a` of the executing instruction: pc holds `a + 2` while it executes (R34; log 13). -/
def State.instrAddr (s : State) : Nat := s.pc - 2

/-- Skip the next two bytes when the condition holds (R203 to R206). -/
def State.skipIf (c : Bool) (s : State) : State := if c then s.setPC (s.pc + 2) else s

/-! ## Stack (R39 to R41) -/

/-- `S[k]`. -/
def State.entry (k : Nat) (s : State) : Nat := s.stack.getD k 0

/-- Push an address, kept to the width of an entry (R9), or nothing when the stack holds `STACK_DEPTH` entries
(R202). -/
def State.push (n : Nat) (s : State) : Option State :=
  if s.sp < s.cfg.stackDepth then
    some { s with stack := tableSet 0 s.sp (keepBits s.cfg.stackWidth n) s.stack, sp := s.sp + 1 }
  else none

/-- Pop the newest entry, which is not cleared (R41), or nothing when SP = 0 (R200). -/
def State.pop (s : State) : Option (Nat × State) :=
  if s.sp = 0 then none else some (s.entry (s.sp - 1), { s with sp := s.sp - 1 })

/-! ## Memory (R14, R71) -/

/-- The byte at an address of the address space: the model's read of one byte. -/
def State.byteAt (a : Nat) (s : State) : Byte := s.mem.read a

/-- `MemRead(a, 1)` (R14): fatal at or above `MEM_SIZE`. -/
def State.memRead (a : Nat) (s : State) : Except Fatal Byte :=
  if a < s.cfg.memSize then .ok (s.byteAt a) else .error (.memOutOfBounds a)

/-- `MemWrite(a, 1, b)` (R14): fatal at or above `MEM_SIZE`; no address is protected (R80). -/
def State.memWrite (a : Nat) (b : Byte) (s : State) : Except Fatal State :=
  if a < s.cfg.memSize then .ok { s with mem := s.mem.write a b } else .error (.memOutOfBounds a)

/-- `MemWrite` of each byte of a list from address `a` upward, stopping at the first fatal one. -/
def State.memWriteList (a : Nat) : List Byte → State → Except Fatal State
  | [], s => .ok s
  | b :: bs, s =>
    match s.memWrite a b with
    | .ok t => t.memWriteList (a + 1) bs
    | .error f => .error f

/-- `V[k] <- MemRead(base + k, 1)` for `n` registers from `k` upward, stopping at the first fatal one (R371). -/
def State.loadRegsFrom (base : Nat) : Nat → Nat → State → Except Fatal State
  | 0, _, s => .ok s
  | n + 1, k, s =>
    match s.memRead (base + k) with
    | .ok b => (s.writeV (BitVec.ofNat 4 k) b.toNat).loadRegsFrom base n (k + 1)
    | .error f => .error f

/-! ## Fetch (R73, R100) -/

/-- The fetch of one cycle: two `MemRead`s, big-endian, then the advance by 2 through SetPC. -/
def State.fetch (s : State) : Except Fatal (Word × State) :=
  match s.memRead s.pc with
  | .error f => .error f
  | .ok hi =>
    match s.memRead (s.pc + 1) with
    | .error f => .error f
    | .ok lo =>
      match s.trySetPC (s.pc + 2) with
      | .error f => .error f
      | .ok t => .ok (hi ++ lo, t)

/-! ## What the host supplies (R412, R416, R417, R510) -/

/-- What the host does next: the oldest operation of the schedule, or, when the schedule is empty, a free one
(R412, R510, R511; log 9). -/
def State.takeOp (s : State) : HostOp × State :=
  match s.schedule with
  | op :: rest => (op, { s with schedule := rest })
  | [] => (Config.hostChoice s.free, { s with free := s.free + 1 })

/-- `draw_random()`: the host's next answer, or, when State holds none, a free byte (R416; log 7). -/
def State.drawRandom (s : State) : Byte × State :=
  match s.randoms with
  | b :: rest => (b, { s with randoms := rest })
  | [] => (Config.hostRandom s.free, { s with free := s.free + 1 })

/-- One poll of the keys, all 16 at that moment: the host's next answer, or, when State holds none, a free
key state (R417; log 8). -/
def State.pollKeys (s : State) : KeySet × State :=
  match s.keyPolls with
  | k :: rest => (k, { s with keyPolls := rest })
  | [] => (Config.hostKeys s.free, { s with free := s.free + 1 })

end Sys2Proof.Machine
end

