-- ==== Sys2Proof/Machine/Flags.lean ====
section
/-! DEFINITION. The flag computations: every value that VF receives as a flag (10_state.md R37). -/

namespace Sys2Proof.Machine

/-- 8XY4: carry out of the top bit of V, the exact sum being above 255 with the 8 bits of R9 (R256; log 1). -/
def State.carryAdd (s : State) (a b : Nat) : Bool := decide (2 ^ s.cfg.vWidth ≤ a + b)

/-- 8XY5 and 8XY7: NOT borrow, the minuend being at least the subtrahend (R257, R259). -/
def noBorrow (minuend subtrahend : Nat) : Bool := decide (subtrahend ≤ minuend)

/-- 8XY6: the bit shifted out on the right, bit 0 of the source (R258). -/
def shiftedOutRight (a : Nat) : Bool := a.testBit 0

/-- 8XYE: the bit shifted out on the left, the top bit of the source, bit 7 with the 8 bits of R9 (R260; log 1). -/
def State.shiftedOutLeft (s : State) (a : Nat) : Bool := a.testBit (s.cfg.vWidth - 1)

end Sys2Proof.Machine
end

