-- ==== Sys2Proof/Machine/Operands.lean ====
section
/-! DEFINITION. Operand forms: the quirk-selected registers, VF as an operand, the lowest key, the font's glyph addresses, the bytes that the block moves store. -/

namespace Sys2Proof.Machine

/-- The X field inside NNN, bits 11:8 of the word (R207). -/
def addrX (nnn : Addr) : Nibble := nnn.extractLsb' 8 4

/-- The target of BNNN: V[0] + NNN, or V[X] + NNN under JumpVX, not reduced (R207). -/
def State.jumpTarget (nnn : Addr) (s : State) : Nat :=
  match s.cfg.quirkJump with
  | .jumpV0 => s.readV 0x0#4 + nnn.toNat
  | .jumpVX => s.readV (addrX nnn) + nnn.toNat

/-- Whether X or Y names VF (R264). -/
def namesFlag (x y : Nibble) : Bool := x == flagReg || y == flagReg

/-- Whether a shift names VF as an operand: X always, Y only when it is the source (R264). -/
def State.shiftNamesFlag (x y : Nibble) (s : State) : Bool :=
  x == flagReg || (y == flagReg && s.cfg.quirkShift == .shiftVY)

/-- Run an instruction unless it is an aliasing word that `VF_ALIAS = Fault` refuses (R264; log 15). -/
def State.guardAlias (aliases : Bool) (s : State) (run : State) : Host.Outcome State Fault Refusal :=
  if aliases && s.cfg.vfAlias == .fault then .refused .vfOperand else .next run

/-- The lowest pressed key (R364; D23). -/
def lowestKey (keys : KeySet) : Option Nat := (List.range 16).find? (fun k => keys.getLsbD k)

/-- The address of the glyph of a value's low nibble (R368). -/
def State.glyphAddr (b : Nat) (s : State) : Nat := s.cfg.fontBase + 5 * (b % 16)

/-- `u8(n)`, the byte that MemWrite stores of a value (R12, R14). -/
def u8 (n : Nat) : Byte := BitVec.ofNat 8 n

/-- The bytes of the three decimal digits of a value, hundreds first (R369). -/
def bcdDigits (n : Nat) : List Byte := [u8 (n / 100), u8 (n / 10 % 10), u8 (n % 10)]

/-- The bytes of V0 to V[x], V0 first (R370). -/
def State.firstRegs (x : Nibble) (s : State) : List Byte :=
  (List.range (x.toNat + 1)).map (fun k => u8 (s.readV (BitVec.ofNat 4 k)))

/-- I after FX55 or FX65: unchanged, or past the last byte moved, modulo 65536 with the 16 bits of R9 (R370, R371;
D22; log 1). -/
def State.bumpI (x : Nibble) (s : State) : State :=
  match s.cfg.quirkLoadStoreI with
  | .unchanged => s
  | .increment => s.writeI (s.i + (x.toNat + 1))

end Sys2Proof.Machine
end

