-- ==== Sys2Proof/Machine/Alu.lean ====
section
/-! DEFINITION. Register ALU, index load and random (41_register_alu.md R250 to R265). Statements are read in order (R17): VF is written before V[X] is read again. -/

namespace Sys2Proof.Machine

/-- LD Vx, NN (R250). -/
def execLdByte (x : Nibble) (nn : Byte) (s : State) : Host.Outcome State Fault Refusal :=
  .next (s.writeV x nn.toNat)

/-- ADD Vx, NN (R251): modulo 256, with the 8 bits of R9 (log 1); no flag. -/
def execAddByte (x : Nibble) (nn : Byte) (s : State) : Host.Outcome State Fault Refusal :=
  .next (s.writeV x (s.readV x + nn.toNat))

/-- LD Vx, Vy (R252). -/
def execLdReg (x y : Nibble) (s : State) : Host.Outcome State Fault Refusal :=
  .next (s.writeV x (s.readV y))

/-- OR Vx, Vy (R253): VF is not reset. -/
def execOrReg (x y : Nibble) (s : State) : Host.Outcome State Fault Refusal :=
  .next (s.writeV x (s.readV x ||| s.readV y))

/-- AND Vx, Vy (R254). -/
def execAndReg (x y : Nibble) (s : State) : Host.Outcome State Fault Refusal :=
  .next (s.writeV x (s.readV x &&& s.readV y))

/-- XOR Vx, Vy (R255). -/
def execXorReg (x y : Nibble) (s : State) : Host.Outcome State Fault Refusal :=
  .next (s.writeV x (s.readV x ^^^ s.readV y))

/-- The state after 8XY4: the sum is computed before any write (R256). -/
def State.addReg (x y : Nibble) (s : State) : State :=
  (s.setFlag (s.carryAdd (s.readV x) (s.readV y))).writeV x (s.readV x + s.readV y)

/-- ADD Vx, Vy (R256). -/
def execAddReg (x y : Nibble) (s : State) : Host.Outcome State Fault Refusal :=
  s.guardAlias (namesFlag x y) (s.addReg x y)

/-- `(a - b) mod 256` with the 8 bits of R9: `a + 2^width - b`, which the write keeps to V's width (R257, R263;
log 1). -/
def State.minus (s : State) (a b : Nat) : Nat := a + 2 ^ s.cfg.vWidth - b

/-- The state after 8XY5: V[X] and V[Y] are read again after the VF write (R257). -/
def State.subReg (x y : Nibble) (s : State) : State :=
  let t := s.setFlag (noBorrow (s.readV x) (s.readV y))
  t.writeV x (t.minus (t.readV x) (t.readV y))

/-- SUB Vx, Vy (R257). -/
def execSubReg (x y : Nibble) (s : State) : Host.Outcome State Fault Refusal :=
  s.guardAlias (namesFlag x y) (s.subReg x y)

/-- The state after 8XY7: V[X] and V[Y] are read again after the VF write (R259). -/
def State.subnReg (x y : Nibble) (s : State) : State :=
  let t := s.setFlag (noBorrow (s.readV y) (s.readV x))
  t.writeV x (t.minus (t.readV y) (t.readV x))

/-- SUBN Vx, Vy (R259). -/
def execSubn (x y : Nibble) (s : State) : Host.Outcome State Fault Refusal :=
  s.guardAlias (namesFlag x y) (s.subnReg x y)

/-- The state after 8XY6: under ShiftVX, V[X] is read again after the VF write; under ShiftVY the source
was read before it (R258). -/
def State.shrReg (x y : Nibble) (s : State) : State :=
  match s.cfg.quirkShift with
  | .shiftVX =>
    let t := s.setFlag (shiftedOutRight (s.readV x))
    t.writeV x (t.readV x >>> 1)
  | .shiftVY => (s.setFlag (shiftedOutRight (s.readV y))).writeV x (s.readV y >>> 1)

/-- SHR Vx, Vy (R258). -/
def execShr (x y : Nibble) (s : State) : Host.Outcome State Fault Refusal :=
  s.guardAlias (s.shiftNamesFlag x y) (s.shrReg x y)

/-- The state after 8XYE, read as 8XY6 is (R260). -/
def State.shlReg (x y : Nibble) (s : State) : State :=
  match s.cfg.quirkShift with
  | .shiftVX =>
    let t := s.setFlag (s.shiftedOutLeft (s.readV x))
    t.writeV x (t.readV x <<< 1)
  | .shiftVY => (s.setFlag (s.shiftedOutLeft (s.readV y))).writeV x (s.readV y <<< 1)

/-- SHL Vx, Vy (R260). -/
def execShl (x y : Nibble) (s : State) : Host.Outcome State Fault Refusal :=
  s.guardAlias (s.shiftNamesFlag x y) (s.shlReg x y)

/-- LD I, NNN (R261). -/
def execLdI (nnn : Addr) (s : State) : Host.Outcome State Fault Refusal :=
  .next (s.writeI nnn.toNat)

/-- RND Vx, NN (R262). -/
def execRnd (x : Nibble) (nn : Byte) (s : State) : Host.Outcome State Fault Refusal :=
  .next (s.drawRandom.2.writeV x (s.drawRandom.1 &&& nn).toNat)

end Sys2Proof.Machine
end

