-- ==== Sys2Proof/Syntax.lean ====
section
/-! DEFINITION. The instructions: one constructor per operation of spec/opcode_table.json, operands as R102 names them. -/

namespace Sys2Proof

/-- The operations of 30_encoding.md R104 and 44_ext_EF.md R360. Bits that an operation ignores are not
kept (R104 to R106). `unimpl` carries its whole word, which its report holds (R340, R342). -/
inductive Instr where
  -- 40_control_flow.md and 42_display.md, families 0x0 to 0x5
  | cls                                 -- CLS, R300
  | ret                                 -- RET, R200
  | jp (nnn : Addr)                     -- JP NNN, R201
  | call (nnn : Addr)                   -- CALL NNN, R202
  | seByte (x : Nibble) (nn : Byte)     -- SE Vx, NN, R203
  | sneByte (x : Nibble) (nn : Byte)    -- SNE Vx, NN, R204
  | seReg (x y : Nibble)                -- SE Vx, Vy, R205
  -- 41_register_alu.md
  | ldByte (x : Nibble) (nn : Byte)     -- LD Vx, NN, R250
  | addByte (x : Nibble) (nn : Byte)    -- ADD Vx, NN, R251
  | ldReg (x y : Nibble)                -- LD Vx, Vy, R252
  | orReg (x y : Nibble)                -- OR Vx, Vy, R253
  | andReg (x y : Nibble)               -- AND Vx, Vy, R254
  | xorReg (x y : Nibble)               -- XOR Vx, Vy, R255
  | addReg (x y : Nibble)               -- ADD Vx, Vy, R256
  | subReg (x y : Nibble)               -- SUB Vx, Vy, R257
  | shr (x y : Nibble)                  -- SHR Vx, Vy, R258
  | subn (x y : Nibble)                 -- SUBN Vx, Vy, R259
  | shl (x y : Nibble)                  -- SHL Vx, Vy, R260
  -- 43_unimplemented.md
  | unimpl (w : Word)                   -- UNIMPL, R340
  -- families 0x9 to 0xD
  | sneReg (x y : Nibble)               -- SNE Vx, Vy, R206
  | ldI (nnn : Addr)                    -- LD I, NNN, R261
  | jpV0 (nnn : Addr)                   -- JP V0, NNN, R207
  | rnd (x : Nibble) (nn : Byte)        -- RND Vx, NN, R262
  | drw (x y n : Nibble)                -- DRW Vx, Vy, N, R301
  -- 44_ext_EF.md, decoded only with EXT_EF = true
  | skp (x : Nibble)                    -- SKP Vx, R361
  | sknp (x : Nibble)                   -- SKNP Vx, R362
  | ldVxDT (x : Nibble)                 -- LD Vx, DT, R363
  | ldVxK (x : Nibble)                  -- LD Vx, K, R364
  | ldDTVx (x : Nibble)                 -- LD DT, Vx, R365
  | ldSTVx (x : Nibble)                 -- LD ST, Vx, R366
  | addI (x : Nibble)                   -- ADD I, Vx, R367
  | ldF (x : Nibble)                    -- LD F, Vx, R368
  | ldB (x : Nibble)                    -- LD B, Vx, R369
  | storeRegs (x : Nibble)              -- LD [I], Vx, R370
  | loadRegs (x : Nibble)               -- LD Vx, [I], R371
  deriving DecidableEq, Repr

end Sys2Proof
end

