-- ==== Sys2Proof/WellFormed.lean ====
section
/-! DEFINITION. Which instructions a session's decoder can produce: the unimplemented-opcode space of R107 and the EXT_EF gate of R360. -/

namespace Sys2Proof

/-- The words that 44_ext_EF.md R360 names: EX9E, EXA1, and FX07, 0A, 15, 18, 1E, 29, 33, 55, 65. -/
def isExtWord (w : Word) : Bool :=
  [0xE09E#16, 0xE0A1#16, 0xF007#16, 0xF00A#16, 0xF015#16, 0xF018#16, 0xF01E#16, 0xF029#16,
    0xF033#16, 0xF055#16, 0xF065#16].contains (w &&& 0xF0FF#16)

/-- The words of family 0x8 with no operation: N in 8, 9, A, B, C, D, F (R107). -/
def isAluHole (w : Word) : Bool :=
  [0x8008#16, 0x8009#16, 0x800A#16, 0x800B#16, 0x800C#16, 0x800D#16, 0x800F#16].contains (w &&& 0xF00F#16)

/-- The unimplemented-opcode space of R107, under each setting of EXT_EF. -/
def isUnimplWord (ext : Bool) (w : Word) : Bool :=
  isAluHole w || (w &&& 0xE000#16 == 0xE000#16 && !(ext && isExtWord w))

/-- An instruction that a decoder with `EXT_EF = ext` can produce: `unimpl` only of a word of R107, and
an extension instruction only with the extension on (R360). Every operand value is legal (R103). -/
def Instr.wf (ext : Bool) : Instr → Bool
  | .cls | .ret | .jp _ | .call _ | .seByte _ _ | .sneByte _ _ | .seReg _ _ => true
  | .ldByte _ _ | .addByte _ _ | .ldReg _ _ | .orReg _ _ | .andReg _ _ | .xorReg _ _ => true
  | .addReg _ _ | .subReg _ _ | .shr _ _ | .subn _ _ | .shl _ _ => true
  | .unimpl w => isUnimplWord ext w
  | .sneReg _ _ | .ldI _ | .jpV0 _ | .rnd _ _ | .drw _ _ _ => true
  | .skp _ | .sknp _ | .ldVxDT _ | .ldVxK _ | .ldDTVx _ | .ldSTVx _ => ext
  | .addI _ | .ldF _ | .ldB _ | .storeRegs _ | .loadRegs _ => ext

end Sys2Proof
end

