-- ==== Sys2Proof/Decode.lean ====
section
/-! DEFINITION. Decoding (30_encoding.md R102 to R107, 44_ext_EF.md R360) and, after it, encoding (R104, R109). -/

namespace Sys2Proof

/-! ## The fields of an instruction word (R18, R102) -/

/-- F, bits 15:12. -/
def fieldF (w : Word) : Nibble := w.extractLsb' 12 4
/-- X, bits 11:8. -/
def fieldX (w : Word) : Nibble := w.extractLsb' 8 4
/-- Y, bits 7:4. -/
def fieldY (w : Word) : Nibble := w.extractLsb' 4 4
/-- N, bits 3:0. -/
def fieldN (w : Word) : Nibble := w.extractLsb' 0 4
/-- NN, bits 7:0. -/
def fieldNN (w : Word) : Byte := w.extractLsb' 0 8
/-- NNN, bits 11:0. -/
def fieldNNN (w : Word) : Addr := w.extractLsb' 0 12

/-! ## Decode -/

/-- Family 0x0 looks at N alone (R105). -/
def decodeFamily0 (w : Word) : Instr :=
  if fieldN w = 0x0#4 then .cls else .ret

/-- Family 0x8, dispatched on N (R104). -/
def decodeFamily8 (w : Word) : Instr :=
  match (fieldN w).toNat with
  | 0x0 => .ldReg (fieldX w) (fieldY w)
  | 0x1 => .orReg (fieldX w) (fieldY w)
  | 0x2 => .andReg (fieldX w) (fieldY w)
  | 0x3 => .xorReg (fieldX w) (fieldY w)
  | 0x4 => .addReg (fieldX w) (fieldY w)
  | 0x5 => .subReg (fieldX w) (fieldY w)
  | 0x6 => .shr (fieldX w) (fieldY w)
  | 0x7 => .subn (fieldX w) (fieldY w)
  | 0xE => .shl (fieldX w) (fieldY w)
  | _ => .unimpl w

/-- Family 0xE with the extension on, dispatched on NN (R360). -/
def decodeFamilyE (w : Word) : Instr :=
  match (fieldNN w).toNat with
  | 0x9E => .skp (fieldX w)
  | 0xA1 => .sknp (fieldX w)
  | _ => .unimpl w

/-- Family 0xF with the extension on, dispatched on NN (R360). -/
def decodeFamilyF (w : Word) : Instr :=
  match (fieldNN w).toNat with
  | 0x07 => .ldVxDT (fieldX w)
  | 0x0A => .ldVxK (fieldX w)
  | 0x15 => .ldDTVx (fieldX w)
  | 0x18 => .ldSTVx (fieldX w)
  | 0x1E => .addI (fieldX w)
  | 0x29 => .ldF (fieldX w)
  | 0x33 => .ldB (fieldX w)
  | 0x55 => .storeRegs (fieldX w)
  | 0x65 => .loadRegs (fieldX w)
  | _ => .unimpl w

/-- Decode is pure and total on 16-bit words (R104); `ext` is `EXT_EF`. A word with no operation is
`unimpl`, by name, never a neighbour (R107). -/
def decode (ext : Bool) (w : Word) : Instr :=
  match (fieldF w).toNat with
  | 0x0 => decodeFamily0 w
  | 0x1 => .jp (fieldNNN w)
  | 0x2 => .call (fieldNNN w)
  | 0x3 => .seByte (fieldX w) (fieldNN w)
  | 0x4 => .sneByte (fieldX w) (fieldNN w)
  | 0x5 => .seReg (fieldX w) (fieldY w)
  | 0x6 => .ldByte (fieldX w) (fieldNN w)
  | 0x7 => .addByte (fieldX w) (fieldNN w)
  | 0x8 => decodeFamily8 w
  | 0x9 => .sneReg (fieldX w) (fieldY w)
  | 0xA => .ldI (fieldNNN w)
  | 0xB => .jpV0 (fieldNNN w)
  | 0xC => .rnd (fieldX w) (fieldNN w)
  | 0xD => .drw (fieldX w) (fieldY w) (fieldN w)
  | 0xE => if ext then decodeFamilyE w else .unimpl w
  | _ => if ext then decodeFamilyF w else .unimpl w

/-- Why a list of bytes holds no instruction. Every pair of bytes does (R107), so the one reason is that
a byte is missing (every instruction is two bytes, R102). -/
inductive DecodeError where
  | truncated
  deriving DecidableEq, Repr

/-- The word of two fetched bytes: the byte at the lower address is bits 15:8 (R73). -/
def wordOfBytes (hi lo : Byte) : Word := hi ++ lo

/-- The first instruction of a list of bytes, and the bytes after it. -/
def decodeBytes (ext : Bool) : List Byte → Except DecodeError (Instr × List Byte)
  | hi :: lo :: rest => .ok (decode ext (wordOfBytes hi lo), rest)
  | _ => .error .truncated

/-! ## Encode -/

/-- F, X, Y, N side by side (R102, nibble view). -/
def encFXYN (f x y n : Nibble) : Word := (((f ++ x : BitVec 8) ++ y : BitVec 12) ++ n : BitVec 16)
/-- F, X, NN side by side. -/
def encFXNN (f x : Nibble) (nn : Byte) : Word := ((f ++ x : BitVec 8) ++ nn : BitVec 16)
/-- F, NNN side by side. -/
def encFNNN (f : Nibble) (nnn : Addr) : Word := (f ++ nnn : BitVec 16)

/-- The canonical word of R109 (families 0x0 to 0xD) and R360 (0xE, 0xF); `unimpl` is its own word. -/
def encode : Instr → Word
  | .cls => 0x00E0#16
  | .ret => 0x00EE#16
  | .jp nnn => encFNNN 0x1 nnn
  | .call nnn => encFNNN 0x2 nnn
  | .seByte x nn => encFXNN 0x3 x nn
  | .sneByte x nn => encFXNN 0x4 x nn
  | .seReg x y => encFXYN 0x5 x y 0x0
  | .ldByte x nn => encFXNN 0x6 x nn
  | .addByte x nn => encFXNN 0x7 x nn
  | .ldReg x y => encFXYN 0x8 x y 0x0
  | .orReg x y => encFXYN 0x8 x y 0x1
  | .andReg x y => encFXYN 0x8 x y 0x2
  | .xorReg x y => encFXYN 0x8 x y 0x3
  | .addReg x y => encFXYN 0x8 x y 0x4
  | .subReg x y => encFXYN 0x8 x y 0x5
  | .shr x y => encFXYN 0x8 x y 0x6
  | .subn x y => encFXYN 0x8 x y 0x7
  | .shl x y => encFXYN 0x8 x y 0xE
  | .unimpl w => w
  | .sneReg x y => encFXYN 0x9 x y 0x0
  | .ldI nnn => encFNNN 0xA nnn
  | .jpV0 nnn => encFNNN 0xB nnn
  | .rnd x nn => encFXNN 0xC x nn
  | .drw x y n => encFXYN 0xD x y n
  | .skp x => encFXNN 0xE x 0x9E
  | .sknp x => encFXNN 0xE x 0xA1
  | .ldVxDT x => encFXNN 0xF x 0x07
  | .ldVxK x => encFXNN 0xF x 0x0A
  | .ldDTVx x => encFXNN 0xF x 0x15
  | .ldSTVx x => encFXNN 0xF x 0x18
  | .addI x => encFXNN 0xF x 0x1E
  | .ldF x => encFXNN 0xF x 0x29
  | .ldB x => encFXNN 0xF x 0x33
  | .storeRegs x => encFXNN 0xF x 0x55
  | .loadRegs x => encFXNN 0xF x 0x65

/-- The high byte of a word, which stands at the lower address (R73). -/
def highByte (w : Word) : Byte := w.extractLsb' 8 8
/-- The low byte of a word. -/
def lowByte (w : Word) : Byte := w.extractLsb' 0 8

/-- The two bytes of an instruction as memory holds them (R73, R109). -/
def encodeBytes (i : Instr) : List Byte := [highByte (encode i), lowByte (encode i)]

/-! ## The opcode table's words -/

/-- The instruction the decoder reads from a word numbered as spec/opcode_table.json numbers it: every row
is one 16-bit word, so its bits are the word's. The extension is on, for the table lists its rows too
(condition `EXT_EF = true`). -/
def decodeTableWord (_nbits w : Nat) : Option Instr :=
  match decodeBytes true [highByte (BitVec.ofNat 16 w), lowByte (BitVec.ofNat 16 w)] with
  | .ok (i, _) => some i
  | .error _ => none

end Sys2Proof
end

