-- ==== Sys2Proof/Machine/ControlFlow.lean ====
section
/-! DEFINITION. Control flow: RET, JP, CALL, the four skips, JP V0 (40_control_flow.md R200 to R207). pc holds a + 2 on entry (R34). -/

namespace Sys2Proof.Machine

/-- RET (R200). -/
def execRet (s : State) : Host.Outcome State Fault Refusal :=
  match s.pop with
  | none => .next (s.raiseFatal (.stackUnderflow s.instrAddr))
  | some (n, t) => .next (t.setPC n)

/-- JP NNN (R201). -/
def execJp (nnn : Addr) (s : State) : Host.Outcome State Fault Refusal :=
  .next (s.setPC nnn.toNat)

/-- CALL NNN (R202): at capacity it is reported and does nothing else (R404). -/
def execCall (nnn : Addr) (s : State) : Host.Outcome State Fault Refusal :=
  match s.push s.pc with
  | none => .next (s.report (.stackOverflow s.instrAddr (encode (.call nnn))))
  | some t => .next (t.setPC nnn.toNat)

/-- SE Vx, NN (R203). -/
def execSeByte (x : Nibble) (nn : Byte) (s : State) : Host.Outcome State Fault Refusal :=
  .next (s.skipIf (s.readV x == nn.toNat))

/-- SNE Vx, NN (R204). -/
def execSneByte (x : Nibble) (nn : Byte) (s : State) : Host.Outcome State Fault Refusal :=
  .next (s.skipIf (s.readV x != nn.toNat))

/-- SE Vx, Vy (R205). -/
def execSeReg (x y : Nibble) (s : State) : Host.Outcome State Fault Refusal :=
  .next (s.skipIf (s.readV x == s.readV y))

/-- SNE Vx, Vy (R206). -/
def execSneReg (x y : Nibble) (s : State) : Host.Outcome State Fault Refusal :=
  .next (s.skipIf (s.readV x != s.readV y))

/-- JP V0, NNN (R207), under both settings of QUIRK_JUMP. -/
def execJpV0 (nnn : Addr) (s : State) : Host.Outcome State Fault Refusal :=
  .next (s.setPC (s.jumpTarget nnn))

end Sys2Proof.Machine
end

