-- ==== Sys2Proof/Machine/Display.lean ====
section
/-! DEFINITION. Framebuffer operations: CLS, and DRW with its XOR compositor and edge clipper (42_display.md R300 to R311). -/

namespace Sys2Proof.Machine

/-- `FB[y][x]` (R43). -/
def pixel (fb : Framebuffer) (y x : Nat) : Bool := (fb.getD y []).getD x false

/-- `FB[y][x] <- FB[y][x] ^ 1` (R305). -/
def togglePixel (fb : Framebuffer) (y x : Nat) : Framebuffer :=
  tableSet [] y (tableSet false x (!pixel fb y x) (fb.getD y [])) fb

/-- CLS (R300). -/
def execCls (s : State) : Host.Outcome State Fault Refusal := .next (s.putFb (blankFb s.cfg))

/-- The framebuffer and the collision flag while a sprite is being drawn (R305, R306). -/
structure Canvas where
  fb : Framebuffer
  hit : Bool
  deriving DecidableEq, Repr

/-- Bit `7 - k` of the sprite byte `b`, drawn at row `ry`, column `x0 + k` of a screen of `w` columns: dropped
at or past the right edge (R304), else an XOR toggle that records a collision (R305). -/
def drawBit (w : Nat) (b : Byte) (x0 ry k : Nat) (c : Canvas) : Canvas :=
  if x0 + k < w then
    if b.getLsbD (7 - k) then { fb := togglePixel c.fb ry (x0 + k), hit := c.hit || pixel c.fb ry (x0 + k) }
    else c
  else c

/-- Bits `7 - k` to 0 of a row, most significant first; `n` is how many are left (R304). -/
def drawBits (w : Nat) (b : Byte) (x0 ry : Nat) : Nat → Nat → Canvas → Canvas
  | 0, _, c => c
  | n + 1, k, c => drawBits w b x0 ry n (k + 1) (drawBit w b x0 ry k c)

/-- One sprite row of 8 bits. -/
def drawRow (w : Nat) (b : Byte) (x0 ry : Nat) (c : Canvas) : Canvas := drawBits w b x0 ry 8 0 c

/-- Sprite rows from row `r` downward, `n` of them left: the whole sprite stops at the bottom edge before
the row's byte is read (R303, R307). -/
def State.drawRows (x0 y0 : Nat) (s : State) : Nat → Nat → Canvas → Except Fatal Canvas
  | 0, _, c => .ok c
  | n + 1, r, c =>
    if y0 + r < s.cfg.dispH then
      match s.memRead (s.i + r) with
      | .ok b => s.drawRows x0 y0 n (r + 1) (drawRow s.cfg.dispW b x0 (y0 + r) c)
      | .error f => .error f
    else .ok c

/-- The sprite of N rows drawn at V[X] mod `DISP_W`, V[Y] mod `DISP_H`, both read once, before VF is cleared
(R302). -/
def State.drawSprite (x y n : Nibble) (s : State) : Except Fatal State :=
  match s.drawRows (s.readV x % s.cfg.dispW) (s.readV y % s.cfg.dispH) n.toNat 0
      { fb := s.fb, hit := false } with
  | .ok c => .ok ((s.putFb c.fb).setFlag c.hit)
  | .error f => .error f

/-- DRW Vx, Vy, N (R301). -/
def execDrw (x y n : Nibble) (s : State) : Host.Outcome State Fault Refusal :=
  s.guardAlias (namesFlag x y) (orAbort s (s.drawSprite x y n))

end Sys2Proof.Machine
end

