-- ==== Sys2Proof/Machine/Extension.lean ====
section
/-! DEFINITION. The optional extension, families 0xE and 0xF (44_ext_EF.md R361 to R371; PRESUMED as a whole, log 14). -/

namespace Sys2Proof.Machine

/-- SKP Vx (R361): an index above 15 is refused before any poll. -/
def execSkp (x : Nibble) (s : State) : Host.Outcome State Fault Refusal :=
  if 15 < s.readV x then .refused .keyIndexRange
  else .next (s.pollKeys.2.skipIf (s.pollKeys.1.getLsbD (s.readV x)))

/-- SKNP Vx (R362). -/
def execSknp (x : Nibble) (s : State) : Host.Outcome State Fault Refusal :=
  if 15 < s.readV x then .refused .keyIndexRange
  else .next (s.pollKeys.2.skipIf (!s.pollKeys.1.getLsbD (s.readV x)))

/-- LD Vx, DT (R363). -/
def execLdVxDT (x : Nibble) (s : State) : Host.Outcome State Fault Refusal :=
  .next (s.writeV x s.dt)

/-- LD Vx, K (R364): the lowest pressed key, or the instruction again when none is pressed. -/
def execLdVxK (x : Nibble) (s : State) : Host.Outcome State Fault Refusal :=
  .next (match lowestKey s.pollKeys.1 with
    | some k => s.pollKeys.2.writeV x k
    | none => s.pollKeys.2.setPC s.instrAddr)

/-- LD DT, Vx (R365). -/
def execLdDTVx (x : Nibble) (s : State) : Host.Outcome State Fault Refusal :=
  .next (s.writeTimer .delay (s.readV x))

/-- LD ST, Vx (R366). -/
def execLdSTVx (x : Nibble) (s : State) : Host.Outcome State Fault Refusal :=
  .next (s.writeTimer .sound (s.readV x))

/-- ADD I, Vx (R367): modulo 65536, with the 16 bits of R9 (log 1); VF unchanged. -/
def execAddI (x : Nibble) (s : State) : Host.Outcome State Fault Refusal :=
  .next (s.writeI (s.i + s.readV x))

/-- LD F, Vx (R368). -/
def execLdF (x : Nibble) (s : State) : Host.Outcome State Fault Refusal :=
  .next (s.writeI (s.glyphAddr (s.readV x)))

/-- LD B, Vx (R369). -/
def execLdB (x : Nibble) (s : State) : Host.Outcome State Fault Refusal :=
  .next (orAbort s (s.memWriteList s.i (bcdDigits (s.readV x))))

/-- LD [I], Vx (R370). -/
def execStoreRegs (x : Nibble) (s : State) : Host.Outcome State Fault Refusal :=
  .next (orAbort s ((s.memWriteList s.i (s.firstRegs x)).map (fun t => t.bumpI x)))

/-- LD Vx, [I] (R371). -/
def execLoadRegs (x : Nibble) (s : State) : Host.Outcome State Fault Refusal :=
  .next (orAbort s ((s.loadRegsFrom s.i (x.toNat + 1) 0).map (fun t => t.bumpI x)))

end Sys2Proof.Machine
end

