-- ==== Sys2Proof/Machine/Unimplemented.lean ====
section
/-! DEFINITION. UNIMPL, the unimplemented opcode (43_unimplemented.md R340 to R342). -/

namespace Sys2Proof.Machine

/-- UNIMPL (R340): reported with its address and word, and otherwise a no-op (R404). -/
def execUnimpl (w : Word) (s : State) : Host.Outcome State Fault Refusal :=
  .next (s.report (.unimplementedOpcode s.instrAddr w))

end Sys2Proof.Machine
end

