-- ==== Sys2Proof/Machine/Session.lean ====
section
/-! DEFINITION. The host's side of a session: Construct (70_reset_and_hazards.md R500 to R503), the ticks (60_exceptions.md R410, R411), the reads and Shutdown (R414, R415). -/

namespace Sys2Proof.Machine

/-- A font source is well-formed when it has exactly `FONT_LEN` entries, each a byte (R502). -/
def fontOk (cfg : Config) (font : List Nat) : Bool :=
  font.length == cfg.fontLen && font.all (fun k => decide (k < 256))

/-- Memory before the font and the program are loaded (step 3 of R501): 0x00 everywhere, where unlisted memory
would read as the default font too, or, under `Unknown`, open contents. -/
def emptyMem (cfg : Config) : Memory :=
  match cfg.resetFill with
  | .zero => Memory.writeBytes [] 0 (List.replicate (min defaultFont.length cfg.memSize) 0#8)
  | .unknown => Memory.fill cfg.memSize (Config.atPowerOnByte 0)

/-- The memory of steps 3 to 5 of R501: the fill, then the font at `FONT_BASE`, then the program at
`LOAD_OFFSET`. -/
def constructMem (cfg : Config) (font : List Nat) (program : List Byte) : Memory :=
  ((emptyMem cfg).writeBytes cfg.fontBase (font.map (BitVec.ofNat 8))).writeBytes cfg.loadOffset program

/-- The registers of step 6 of R501: the values of R50, or, under `Unknown`, free ones; SP is 0 under both. -/
def constructRegs (s : State) : State :=
  match s.cfg.resetFill with
  | .zero => s
  | .unknown =>
    let r := fittedTo s.cfg (Config.atPowerOn 0)
    { s with
      v := r.v
      i := r.i
      stack := r.stack
      dt := r.dt
      st := r.st
      fb := r.fb }

/-- `Construct(font, program)` (R501), the one reset (R500): it fails with FONT_MALFORMED (R502), then with
PROGRAM_TOO_LARGE (R503; D18), and else leaves pc at `LOAD_OFFSET`, Running, with an empty log. What the host
does in the session is left open (R511; logs 7 to 9). -/
def construct (cfg : Config) (font : List Nat) (program : List Byte) : State :=
  if !fontOk cfg font then (State.blank cfg).raiseFatal .fontMalformed
  else if cfg.programMax < program.length then (State.blank cfg).raiseFatal (.programTooLarge program.length)
  else { constructRegs (State.blank cfg) with mem := constructMem cfg font program }

/-- `TickDelay` and `TickSound` (R410): count down, or report TIMER_IDLE at 0 (R411). -/
def State.tick (t : Timer) (s : State) : State :=
  if s.timer t = 0 then s.report (.timerIdle t) else s.writeTimer t (s.timer t - 1)

/-- `Shutdown()` ends the session (R414; log 12). -/
def State.shutdown (s : State) : State := { s with ended := true }

/-- `ReadDisplay()` (R415). -/
def State.readDisplay (s : State) : Framebuffer := s.fb

/-- `ReadStatus()` (R414). -/
def State.readStatus (s : State) : RunStatus := s.status

/-- `ReadReports()` (R414). -/
def State.readReports (s : State) : List Report := s.reports

/-- `ReadSoundTimer()` (R413, R414; D34). -/
def State.readSoundTimer (s : State) : Nat := s.st

end Sys2Proof.Machine
end

