-- ==== Sys2Proof/Machine/Cycle.lean ====
section
/-! DEFINITION. One cycle (30_encoding.md R100, R101) and the other host operations a step runs (60_exceptions.md R414). -/

namespace Sys2Proof.Machine

/-- `Cycle()` (R100): fetch and advance, decode, execute. A fatal of the fetch ends the cycle before
decode (R101). -/
def State.cycle (s : State) : Host.Outcome State Fault Refusal :=
  match s.fetch with
  | .error f => .next (s.raiseFatal f)
  | .ok (w, t) => exec (decode s.cfg.extEF w) t

/-- One host operation (R414). -/
def State.hostOp (op : HostOp) (s : State) : Host.Outcome State Fault Refusal :=
  match op with
  | .cycle => s.cycle
  | .tickDelay => .next (s.tick .delay)
  | .tickSound => .next (s.tick .sound)
  | .shutdown => .next s.shutdown

/-- The next host operation: the one that the schedule or, when that is empty, the host's free choice names
(R510; log 9). -/
def State.nextOp (s : State) : Host.Outcome State Fault Refusal := s.takeOp.2.hostOp s.takeOp.1

/-- The next host operation, when the session is live and Running; the host may call none otherwise
(R402, R414, R511; log 11). -/
def State.guardedOp (s : State) : Host.Outcome State Fault Refusal :=
  match s.status with
  | .aborted f => .fault (.sessionAborted f)
  | .running => if s.ended then .fault .sessionEnded else s.nextOp

/-- The extension is what makes a word an extension instruction: whether the two settings of EXT_EF read
the word differently (R360). -/
def needsExt (w : Word) : Bool := decode true w != decode false w

/-- The session's parameters, with EXT_EF on when the word is an instruction only then (log 14). -/
def cfgForWord (w : Word) (cfg : Config) : Config := if needsExt w then { cfg with extEF := true } else cfg

/-- The word stored big-endian at pc, in a live session whose next host operation is a cycle (log 22). -/
def State.placeWord (w : Word) (s : State) : State :=
  { s with
    mem := s.mem.writeBytes s.pc [highByte w, lowByte w]
    status := .running
    ended := false
    schedule := .cycle :: s.schedule
    cfg := cfgForWord w s.cfg }

end Sys2Proof.Machine
end

