-- ==== Sys2Proof/Machine/Step.lean ====
section
/-! DEFINITION. step: one host operation, most often one cycle (60_exceptions.md R414, 70_reset_and_hazards.md R507). -/

namespace Sys2Proof.Machine

/-- One indivisible step of the block: the host's next operation (R507; log 9). -/
def step (s : State) : Host.Outcome State Fault Refusal := s.guardedOp

/-- The state in which the very next step fetches and runs the word of an opcode-table row (log 22). -/
def State.withFetchWord (s : State) (_nbits w : Nat) : State := s.placeWord (BitVec.ofNat 16 w)

end Sys2Proof.Machine
end

