-- ==== Sys2Proof/Safety.lean ====
section
/-! DEFINITION. The invariant of the machine, what a safe run is, and the terms in which the statements speak. -/

namespace Sys2Proof.Machine

/-- Every live stack entry is a value that SetPC accepts (R200, R202). -/
def State.liveEntriesOk (s : State) : Prop := ∀ k, k < s.sp → s.cfg.pcOk (s.entry k)

/-- The screen has `DISP_H` rows of `DISP_W` pixels (R43). -/
def fbShaped (cfg : Config) (fb : Framebuffer) : Prop := fb.length = cfg.dispH ∧ ∀ row ∈ fb, row.length = cfg.dispW

/-- The tables have the sizes that the parameters give them (R9, R30, R39, R40, R43; log 1). -/
structure State.Shaped (s : State) : Prop where
  v : s.v.length = s.cfg.numV
  stack : s.stack.length = s.cfg.stackDepth
  sp : s.sp ≤ s.cfg.stackDepth
  fb : fbShaped s.cfg s.fb

/-- The registers, the stack entries and the timers hold numbers of the widths that the parameters give them
(R9, R30, R33, R38, R39, R42; log 1). -/
structure State.InWidths (s : State) : Prop where
  v : ∀ n ∈ s.v, n < 2 ^ s.cfg.vWidth
  i : s.i < 2 ^ s.cfg.iWidth
  pc : s.pc < 2 ^ s.cfg.pcWidth
  stack : ∀ n ∈ s.stack, n < 2 ^ s.cfg.stackWidth
  dt : s.dt < 2 ^ s.cfg.timerWidth
  st : s.st < 2 ^ s.cfg.timerWidth

/-- The invariant: the parameters make sense, every table has its size and every register its width, memory is
in canonical form and inside the address space, and while the session runs pc is at most `MEM_SIZE - 2` (R33, R36)
and so is every live stack entry. (After an abort the contents are unspecified, R402.) -/
structure State.Inv (s : State) : Prop where
  cfgWf : s.cfg.Wf
  shaped : s.Shaped
  widths : s.InWidths
  memWf : Memory.wf s.mem = true
  memWithin : Memory.within s.cfg.memSize s.mem = true
  pcBound : s.status = .running → s.cfg.pcOk s.pc
  liveEntries : s.status = .running → s.liveEntriesOk

/-- The host may call an operation: the session is live and Running (R414, R511). -/
def State.live (s : State) : Prop := s.status = .running ∧ s.ended = false

/-- The next host operation is a cycle; `t` is `s` once it is taken from the schedule, or, when that is empty,
from the host's free choice (log 9). -/
def State.cycleNext (s t : State) : Prop := s.takeOp = (HostOp.cycle, t)

/-- A safe step: it stops neither with a fault nor with a refusal, and aborts nothing. -/
def State.safeStep (s : State) : Prop := ∃ t, step s = .next t ∧ t.status = .running

/-- The outcome is an abort with this condition: a next state whose status is Aborted, with the report log,
the configuration and the schedule as in `s` (R402, R405). -/
def abortsWith (o : Host.Outcome State Fault Refusal) (f : Fatal) (s : State) : Prop :=
  ∃ t, o = .next t ∧ t.status = .aborted f ∧ t.reports = s.reports ∧ t.cfg = s.cfg ∧
    t.schedule = s.schedule ∧ t.ended = s.ended

/-- Every byte of memory reads as before. -/
def State.sameMemory (s t : State) : Prop := ∀ a, t.byteAt a = s.byteAt a

/-- Nothing but the V registers in `rs` changes: no other V register, no other field, no byte of memory. -/
def State.onlyRegsChange (s t : State) (rs : List Nibble) : Prop :=
  t = { s with v := t.v } ∧ (∀ r : Nibble, r ∉ rs → t.readV r = s.readV r) ∧ s.sameMemory t

/-- `i` is a skip on the condition `c` (R203 to R206): taken, it moves pc on by 2 and changes nothing else,
or aborts where pc + 2 passes `MEM_SIZE - 2`; not taken, it changes nothing. -/
def State.skipsWhen (s : State) (i : Instr) (c : Prop) : Prop :=
  (c → s.cfg.pcOk (s.pc + 2) → ∃ t, exec i s = .next t ∧ t = { s with pc := s.pc + 2 } ∧ s.sameMemory t) ∧
  (c → ¬s.cfg.pcOk (s.pc + 2) → abortsWith (exec i s) (.pcOutOfRange (s.pc + 2)) s) ∧
  (¬c → exec i s = .next s)

/-- The session runs words that name VF as an operand (R264). -/
def State.sequential (s : State) : Prop := s.cfg.vfAlias = .sequential

/-- The value of VF for the flag condition `c` (R37). -/
def flagValue (c : Prop) [Decidable c] : Nat := if c then 1 else 0

/-- The sprite at column `x0`, row `y0` with `n` rows has a set bit at pixel (Y, X) (R303, R304): the pixel
is in the rectangle, and bit 7 - (X - x0) of the byte at I + (Y - y0) is 1. -/
def State.spriteBit (s : State) (x0 y0 n : Nat) (Y X : Nat) : Bool :=
  decide (y0 ≤ Y ∧ Y < y0 + n ∧ x0 ≤ X ∧ X < x0 + 8) &&
    (s.byteAt (s.i + (Y - y0))).getLsbD (7 - (X - x0))

/-- The V registers that an instruction may write (R32; 44_ext_EF.md for the extension). -/
def Instr.mayWriteV (i : Instr) (r : Nibble) : Bool :=
  match i with
  | .ldByte x _ | .addByte x _ | .ldReg x _ | .orReg x _ | .andReg x _ | .xorReg x _ | .rnd x _ => r == x
  | .addReg x _ | .subReg x _ | .shr x _ | .subn x _ | .shl x _ => r == x || r == flagReg
  | .drw _ _ _ => r == flagReg
  | .ldVxDT x | .ldVxK x => r == x
  | .loadRegs x => decide (r.toNat ≤ x.toNat)
  | .cls | .ret | .jp _ | .call _ | .seByte _ _ | .sneByte _ _ | .seReg _ _ | .sneReg _ _ => false
  | .unimpl _ | .ldI _ | .jpV0 _ | .skp _ | .sknp _ | .ldDTVx _ | .ldSTVx _ => false
  | .addI _ | .ldF _ | .ldB _ | .storeRegs _ => false

/-- The instructions that write pc in execute (R35; SKP, SKNP and LD Vx, K in the extension). -/
def Instr.mayWritePc (i : Instr) : Bool :=
  match i with
  | .ret | .jp _ | .call _ | .seByte _ _ | .sneByte _ _ | .seReg _ _ | .sneReg _ _ | .jpV0 _ => true
  | .skp _ | .sknp _ | .ldVxK _ => true
  | .cls | .ldByte _ _ | .addByte _ _ | .ldReg _ _ | .orReg _ _ | .andReg _ _ | .xorReg _ _ => false
  | .addReg _ _ | .subReg _ _ | .shr _ _ | .subn _ _ | .shl _ _ | .unimpl _ | .ldI _ | .rnd _ _ => false
  | .drw _ _ _ | .ldVxDT _ | .ldDTVx _ | .ldSTVx _ | .addI _ | .ldF _ | .ldB _ => false
  | .storeRegs _ | .loadRegs _ => false

end Sys2Proof.Machine
end

