-- ==== Sys2Proof/Certificates/Slice0/Obligations.lean ====
section
/-! DEFINITION. The statements about the model, for the provers. Each docstring names the rules of spec/ it formalises. -/

open Sys2Proof Sys2Proof.Machine

/-! ## Encoding -/

/-- Words written out from R102, R104 and R360 decode to the instructions they stand for. -/
def Obligations.WrittenWordsDecodeAsTheRulesSay : Prop :=
  decode false 0x0120#16 = .cls ∧ decode false 0x0123#16 = .ret ∧ decode false 0x1234#16 = .jp 0x234#12 ∧
  decode false 0x5121#16 = .seReg 1#4 2#4 ∧ decode false 0x8ABE#16 = .shl 0xA#4 0xB#4 ∧
  decode false 0x8128#16 = .unimpl 0x8128#16 ∧ decode false 0xDAB7#16 = .drw 0xA#4 0xB#4 7#4 ∧
  decode false 0xF00A#16 = .unimpl 0xF00A#16 ∧ decode true 0xF40A#16 = .ldVxK 4#4 ∧
  decode true 0xE5A1#16 = .sknp 5#4

/-- Decoding an encoded well-formed instruction gives it back, as a word and as the bytes of memory, whatever
bytes follow, under each setting of EXT_EF (R104, R109, R360). -/
def Obligations.DecodeOfEncodeIsTheInstruction : Prop :=
  ∀ (ext : Bool) (i : Instr) (rest : List Byte), i.wf ext = true →
    decode ext (encode i) = i ∧ decodeBytes ext (encodeBytes i ++ rest) = .ok (i, rest)

/-- Every word decodes to a well-formed instruction, and to UNIMPL exactly for the words of R107. -/
def Obligations.UnimplementedWordsAreThoseOfRule107 : Prop :=
  ∀ (ext : Bool) (w : Word), (decode ext w).wf ext = true ∧
    (decode ext w = .unimpl w ↔ isUnimplWord ext w = true)

/-! ## The cycle -/

/-- A step runs the decoded instruction: when the next operation is a cycle, the bytes at pc decode to `i` and
the advance stays in range, the step is `exec i` with pc moved past the word (R100, R73, R34).
The schedule is the model's (log 9); parameters that make sense are those of log 1. -/
def Obligations.StepRunsTheDecodedInstruction : Prop :=
  ∀ (s t : State) (i : Instr), s.cfg.Wf → s.live → s.cycleNext t → s.cfg.pcOk (s.pc + 2) →
    decodeBytes s.cfg.extEF [s.byteAt s.pc, s.byteAt (s.pc + 1)] = .ok (i, []) →
    step s = exec i { t with pc := s.pc + 2 }

/-- A fetch whose advance would pass `MEM_SIZE - 2` aborts with the refused value and executes nothing (R15, and
the spec's decision D4). It is so at 0xFFE and at 0xFFD; for 0xFFD it is the model's reading of R15 and R203,
against the sentence of R101, which names 0xFFE alone (log 19). What stays in an abort is the model's reading
(log 10). -/
def Obligations.FetchAtTheEndOfMemoryAborts : Prop :=
  ∀ s t : State, s.live → s.cycleNext t → s.cfg.pcOk s.pc → ¬s.cfg.pcOk (s.pc + 2) →
    abortsWith (step s) (.pcOutOfRange (s.pc + 2)) t

/-- The host's next operation is the oldest of the schedule, which is used up, or, when the schedule is empty,
the free choice of the next number, `Config.hostChoice`, a constant with no body, so that nothing is known of which
operation it is; nothing else changes (R510, R511; the schedule and the numbering are the model's form, log 9). -/
def Obligations.HostTakesTheNextOperation : Prop :=
  ∀ s : State,
    (∀ op rest, s.schedule = op :: rest → s.takeOp = (op, { s with schedule := rest })) ∧
    (s.schedule = [] → s.takeOp = (Config.hostChoice s.free, { s with free := s.free + 1 }))

/-- The word of an opcode-table row, once placed, is what the very next step runs (log 22): the instruction
that decodeTableWord reads, in the state `t` that differs from `s` in these alone: the two bytes of the word
stand at pc and pc + 1, pc is past it, the session is live and Running, and EXT_EF is on where the word is an
instruction only then (log 14). -/
def Obligations.PlacedWordRunsNext : Prop :=
  ∀ (s : State) (n w : Nat), s.Inv → s.cfg.pcOk (s.pc + 2) →
    ∃ i t, decodeTableWord n w = some i ∧ step (s.withFetchWord n w) = exec i t ∧
      t = { s with
        mem := t.mem
        pc := s.pc + 2
        status := .running
        ended := false
        cfg := if needsExt (BitVec.ofNat 16 w) then { s.cfg with extEF := true } else s.cfg } ∧
      (t.byteAt s.pc).toNat = w / 256 % 256 ∧ (t.byteAt (s.pc + 1)).toNat = w % 256 ∧
      (∀ a, a ≠ s.pc → a ≠ s.pc + 1 → t.byteAt a = s.byteAt a)

/-! ## Control flow -/

/-- RET (R200): the top entry goes to pc, SP falls by one, no entry is cleared (R41, the spec's decision D28,
log 28); with SP = 0 it is STACK_UNDERFLOW at the address of the RET, pc - 2 (log 13). An entry above
`MEM_SIZE - 2`, which no run leaves live, is PC_OUT_OF_RANGE. What stays in an abort is the model's reading
(log 10); parameters that make sense are those of log 1. -/
def Obligations.RetPopsTheReturnAddress : Prop :=
  ∀ s : State, s.cfg.Wf →
    (s.sp = 0 → abortsWith (exec .ret s) (.stackUnderflow (s.pc - 2)) s) ∧
    (∀ k, s.sp = k + 1 → s.cfg.pcOk (s.entry k) →
      ∃ t, exec .ret s = .next t ∧ t = { s with pc := s.entry k, sp := k } ∧ s.sameMemory t) ∧
    (∀ k, s.sp = k + 1 → ¬s.cfg.pcOk (s.entry k) →
      abortsWith (exec .ret s) (.pcOutOfRange (s.entry k)) s)

/-- JP (R201): pc is NNN and nothing else changes; above `MEM_SIZE - 2` (0xFFF alone, with the value of R9) it is
PC_OUT_OF_RANGE. What stays in an abort is the model's reading (log 10); parameters that make sense are those of
log 1. -/
def Obligations.JumpSetsPc : Prop :=
  ∀ (s : State) (nnn : Addr), s.cfg.Wf →
    (s.cfg.pcOk nnn.toNat → ∃ t, exec (.jp nnn) s = .next t ∧ t.pc = nnn.toNat ∧ t = { s with pc := t.pc } ∧
      s.sameMemory t) ∧
    (¬s.cfg.pcOk nnn.toNat → abortsWith (exec (.jp nnn) s) (.pcOutOfRange nnn.toNat) s)

/-- CALL (R202): below capacity the advanced pc is pushed and pc is NNN, or PC_OUT_OF_RANGE above `MEM_SIZE - 2`;
at capacity STACK_OVERFLOW is reported with address and word, and nothing else changes, so that the run goes on
at a + 2 (the spec's decision D31). The address pc - 2 and the reported word are the model's reading (logs 13
and 29), and so is what stays in an abort (log 10). That pc is at most `MEM_SIZE - 2` is the invariant (R33);
parameters that make sense are those of log 1. -/
def Obligations.CallPushesAndJumps : Prop :=
  ∀ (s : State) (nnn : Addr), s.cfg.Wf → s.cfg.pcOk s.pc →
    (s.sp < s.cfg.stackDepth → s.cfg.pcOk nnn.toNat →
      ∃ t, exec (.call nnn) s = .next t ∧ t.pc = nnn.toNat ∧ t.sp = s.sp + 1 ∧
        t.entry s.sp = s.pc ∧ (∀ j, j ≠ s.sp → t.entry j = s.entry j) ∧
        t = { s with pc := t.pc, sp := t.sp, stack := t.stack } ∧ s.sameMemory t) ∧
    (s.sp < s.cfg.stackDepth → ¬s.cfg.pcOk nnn.toNat →
      abortsWith (exec (.call nnn) s) (.pcOutOfRange nnn.toNat) s) ∧
    (s.cfg.stackDepth ≤ s.sp → ∃ t, exec (.call nnn) s = .next t ∧
      t = { s with reports := s.reports ++ [.stackOverflow (s.pc - 2) (0x2#4 ++ nnn)] } ∧ s.sameMemory t)

/-- The skips (R203 to R206), each on its own condition: taken, pc moves on by 2, or PC_OUT_OF_RANGE above
`MEM_SIZE - 2`; not taken, nothing changes. What stays in an abort is the model's reading (log 10); parameters
that make sense are those of log 1. -/
def Obligations.SkipsFollowTheirConditions : Prop :=
  ∀ (s : State) (x y : Nibble) (nn : Byte), s.cfg.Wf →
    s.skipsWhen (.seByte x nn) (s.readV x = nn.toNat) ∧ s.skipsWhen (.sneByte x nn) (s.readV x ≠ nn.toNat) ∧
    s.skipsWhen (.seReg x y) (s.readV x = s.readV y) ∧ s.skipsWhen (.sneReg x y) (s.readV x ≠ s.readV y)

/-- JP V0 (R207): V[0] + NNN, or V[X] + NNN with X the top nibble of NNN under JumpVX, without wrap.
JumpVX is general knowledge (log 17), and what stays in an abort is the model's reading (log 10); parameters that
make sense are those of log 1. -/
def Obligations.IndexedJumpAddsWithoutWrap : Prop :=
  ∀ (s : State) (x : Nibble) (nn : Byte) (target : Nat), s.cfg.Wf →
    target = (if s.cfg.quirkJump = .jumpV0 then s.readV 0#4 else s.readV x) + (x.toNat * 256 + nn.toNat) →
    (s.cfg.pcOk target → ∃ t, exec (.jpV0 (x ++ nn)) s = .next t ∧ t.pc = target ∧ t = { s with pc := t.pc } ∧
      s.sameMemory t) ∧
    (¬s.cfg.pcOk target → abortsWith (exec (.jpV0 (x ++ nn)) s) (.pcOutOfRange target) s)

/-- A CALL, then the RET of a routine that leaves SP and the live entries as it found them, comes back to the
instruction after the CALL (R209). Parameters that make sense are those of log 1. -/
def Obligations.CallThenRetComesBack : Prop :=
  ∀ (s t u : State) (nnn : Addr), s.cfg.Wf → s.cfg.pcOk s.pc → s.sp < s.cfg.stackDepth → s.cfg.pcOk nnn.toNat →
    exec (.call nnn) s = .next t → u.cfg = t.cfg → u.sp = t.sp → (∀ j, j < t.sp → u.entry j = t.entry j) →
    ∃ r, exec .ret u = .next r ∧ r.pc = s.pc ∧ r.sp = s.sp ∧ r.status = u.status

/-! ## Register ALU -/

/-- LD Vx,NN; LD Vx,Vy; OR; AND; XOR (R250, R252 to R255): V[X] holds the result, no other register changes,
VF included, and nothing else does. In every state of a run V holds numbers of its width (the invariant, log 1),
which is at least that of a byte (8 in R9). -/
def Obligations.LoadsAndLogicWriteOnlyVx : Prop :=
  ∀ (s : State) (x y : Nibble) (nn : Byte), 8 ≤ s.cfg.vWidth → s.InWidths →
    (∃ t, exec (.ldByte x nn) s = .next t ∧ t.readV x = nn.toNat ∧ s.onlyRegsChange t [x]) ∧
    (∃ t, exec (.ldReg x y) s = .next t ∧ t.readV x = s.readV y ∧ s.onlyRegsChange t [x]) ∧
    (∃ t, exec (.orReg x y) s = .next t ∧ s.onlyRegsChange t [x] ∧
      ∀ k, (t.readV x).testBit k = ((s.readV x).testBit k || (s.readV y).testBit k)) ∧
    (∃ t, exec (.andReg x y) s = .next t ∧ s.onlyRegsChange t [x] ∧
      ∀ k, (t.readV x).testBit k = ((s.readV x).testBit k && (s.readV y).testBit k)) ∧
    (∃ t, exec (.xorReg x y) s = .next t ∧ s.onlyRegsChange t [x] ∧
      ∀ k, (t.readV x).testBit k = ((s.readV x).testBit k ^^ (s.readV y).testBit k))

/-- ADD Vx,NN (R251): the sum modulo 256, V having the 8 bits of R9 (with another width, modulo 2 to that width, the
model's reading, log 1), and no flag: VF is unchanged unless it is V[X]. -/
def Obligations.AddImmediateWrapsWithoutFlag : Prop :=
  ∀ (s : State) (x : Nibble) (nn : Byte),
    ∃ t, exec (.addByte x nn) s = .next t ∧ t.readV x = (s.readV x + nn.toNat) % 2 ^ s.cfg.vWidth ∧
      (s.cfg.vWidth = 8 → t.readV x = (s.readV x + nn.toNat) % 256) ∧ s.onlyRegsChange t [x]

/-- ADD Vx,Vy (R256), for every X and Y that the session runs: the sum modulo 2 to the width of V (256, log 1) in
V[X], the carry (a sum above 255) in VF, the data winning where X is F (R265). With X or Y = F it rests on the
spec's decision D5 (log 15). -/
def Obligations.AddSetsCarry : Prop :=
  ∀ (s : State) (x y : Nibble), s.cfg.Wf → s.sequential ∨ (x ≠ flagReg ∧ y ≠ flagReg) →
    ∃ t, exec (.addReg x y) s = .next t ∧
      t.readV x = (s.readV x + s.readV y) % 2 ^ s.cfg.vWidth ∧
      (x ≠ flagReg → t.readV flagReg = flagValue (2 ^ s.cfg.vWidth ≤ s.readV x + s.readV y)) ∧
      s.onlyRegsChange t [x, flagReg]

/-- SUB (R257), for every X and Y that the session runs: `c`, NOT borrow, goes to VF first, then the difference
modulo 2 to the width of V (256, log 1) to V[X], both operands read after the VF write, so that one that is VF is
`c`: that is the sequential reading, the spec's decision D5 (R265, log 15). -/
def Obligations.SubSetsNotBorrow : Prop :=
  ∀ (s : State) (x y : Nibble) (c : Nat), s.cfg.Wf → s.sequential ∨ (x ≠ flagReg ∧ y ≠ flagReg) →
    c = flagValue (s.readV y ≤ s.readV x) →
    ∃ t, exec (.subReg x y) s = .next t ∧
      t.readV x = ((if x = flagReg then c else s.readV x) + 2 ^ s.cfg.vWidth -
        (if y = flagReg then c else s.readV y)) % 2 ^ s.cfg.vWidth ∧
      (x ≠ flagReg → t.readV flagReg = c) ∧ s.onlyRegsChange t [x, flagReg]

/-- SUBN (R259), for every X and Y that the session runs: `c`, NOT borrow, goes to VF first, then the reverse
difference modulo 2 to the width of V (256, log 1) to V[X], both operands read after the VF write, so that one that
is VF is `c`: that is the sequential reading, the spec's decision D5 (R265, log 15). -/
def Obligations.SubnSetsNotBorrow : Prop :=
  ∀ (s : State) (x y : Nibble) (c : Nat), s.cfg.Wf → s.sequential ∨ (x ≠ flagReg ∧ y ≠ flagReg) →
    c = flagValue (s.readV x ≤ s.readV y) →
    ∃ t, exec (.subn x y) s = .next t ∧
      t.readV x = ((if y = flagReg then c else s.readV y) + 2 ^ s.cfg.vWidth -
        (if x = flagReg then c else s.readV x)) % 2 ^ s.cfg.vWidth ∧
      (x ≠ flagReg → t.readV flagReg = c) ∧ s.onlyRegsChange t [x, flagReg]

/-- SHR (R258), X not F, under both settings of QUIRK_SHIFT: half the source, and VF its bit 0.
ShiftVY is general knowledge (log 17). In every state of a run V holds numbers of its width (the invariant). -/
def Obligations.ShrHalvesAndSetsTheLostBit : Prop :=
  ∀ (s : State) (x y : Nibble) (src : Nat), s.cfg.Wf → s.InWidths → x ≠ flagReg →
    (s.sequential ∨ y ≠ flagReg ∨ s.cfg.quirkShift = .shiftVX) →
    src = (if s.cfg.quirkShift = .shiftVX then s.readV x else s.readV y) →
    ∃ t, exec (.shr x y) s = .next t ∧ t.readV x = src / 2 ∧
      t.readV flagReg = src % 2 ∧ s.onlyRegsChange t [x, flagReg]

/-- SHL (R260), X not F, under both settings of QUIRK_SHIFT: twice the source modulo 2 to the width of
V (256, log 1), and VF its top bit, bit 7. ShiftVY is general knowledge (log 17). In every state of a run V holds
numbers of its width (the invariant). -/
def Obligations.ShlDoublesAndSetsTheLostBit : Prop :=
  ∀ (s : State) (x y : Nibble) (src : Nat), s.cfg.Wf → s.InWidths → x ≠ flagReg →
    (s.sequential ∨ y ≠ flagReg ∨ s.cfg.quirkShift = .shiftVX) →
    src = (if s.cfg.quirkShift = .shiftVX then s.readV x else s.readV y) →
    ∃ t, exec (.shl x y) s = .next t ∧ t.readV x = src * 2 % 2 ^ s.cfg.vWidth ∧
      t.readV flagReg = src / 2 ^ (s.cfg.vWidth - 1) ∧ s.onlyRegsChange t [x, flagReg]

/-- The table of R265: what a flag-setting operation leaves where it names VF as an operand, under
`VF_ALIAS = Sequential`. `old` is VF before, `m` is 2 to the width of V (256 with the 8 bits of R9, and its half 128;
log 1). The spec's decision D5 (log 15). In every state of a run V holds numbers of its width (the invariant). -/
def Obligations.VfAsOperandFollowsTheSequentialReading : Prop :=
  ∀ (s : State) (x : Nibble) (old a m : Nat), s.cfg.Wf → s.InWidths → s.sequential → x ≠ flagReg →
    old = s.readV flagReg → a = s.readV x → m = 2 ^ s.cfg.vWidth →
    (∃ t, exec (.addReg flagReg x) s = .next t ∧ t.readV flagReg = (old + a) % m ∧ s.onlyRegsChange t [flagReg]) ∧
    (∃ t, exec (.addReg x flagReg) s = .next t ∧ t.readV flagReg = flagValue (m ≤ a + old) ∧
      t.readV x = (a + old) % m ∧ s.onlyRegsChange t [x, flagReg]) ∧
    (∃ t, exec (.addReg flagReg flagReg) s = .next t ∧ t.readV flagReg = 2 * old % m ∧
      s.onlyRegsChange t [flagReg]) ∧
    (∃ t, exec (.subReg flagReg x) s = .next t ∧ t.readV flagReg = (flagValue (a ≤ old) + m - a) % m ∧
      s.onlyRegsChange t [flagReg]) ∧
    (∃ t, exec (.subReg x flagReg) s = .next t ∧ t.readV flagReg = flagValue (old ≤ a) ∧
      t.readV x = (a + m - flagValue (old ≤ a)) % m ∧ s.onlyRegsChange t [x, flagReg]) ∧
    (∃ t, exec (.subReg flagReg flagReg) s = .next t ∧ t.readV flagReg = 0 ∧ s.onlyRegsChange t [flagReg]) ∧
    (∃ t, exec (.subn flagReg x) s = .next t ∧ t.readV flagReg = (a + m - flagValue (old ≤ a)) % m ∧
      s.onlyRegsChange t [flagReg]) ∧
    (∃ t, exec (.subn x flagReg) s = .next t ∧ t.readV flagReg = flagValue (a ≤ old) ∧
      t.readV x = (flagValue (a ≤ old) + m - a) % m ∧ s.onlyRegsChange t [x, flagReg]) ∧
    (∃ t, exec (.subn flagReg flagReg) s = .next t ∧ t.readV flagReg = 0 ∧ s.onlyRegsChange t [flagReg]) ∧
    (∀ y, s.cfg.quirkShift = .shiftVX →
      (∃ t, exec (.shr flagReg y) s = .next t ∧ t.readV flagReg = 0 ∧ s.onlyRegsChange t [flagReg]) ∧
      (∃ t, exec (.shl flagReg y) s = .next t ∧ t.readV flagReg = (if old < m / 2 then 0 else 2) ∧
        s.onlyRegsChange t [flagReg])) ∧
    (s.cfg.quirkShift = .shiftVY →
      (∃ t, exec (.shr x flagReg) s = .next t ∧ t.readV flagReg = old % 2 ∧
        t.readV x = old / 2 ∧ s.onlyRegsChange t [x, flagReg]) ∧
      (∃ t, exec (.shl x flagReg) s = .next t ∧ t.readV flagReg = old / (m / 2) ∧
        t.readV x = old * 2 % m ∧ s.onlyRegsChange t [x, flagReg]) ∧
      (∀ y, ∃ t, exec (.shr flagReg y) s = .next t ∧ t.readV flagReg = s.readV y / 2 ∧
        s.onlyRegsChange t [flagReg]) ∧
      (∀ y, ∃ t, exec (.shl flagReg y) s = .next t ∧ t.readV flagReg = s.readV y * 2 % m ∧
        s.onlyRegsChange t [flagReg]))

/-- `VF_ALIAS = Fault` refuses exactly the words of R264; with `Sequential` no word is refused for it.
The spec's decision D5 (log 15). -/
def Obligations.VfAliasFaultRefusesTheListedWords : Prop :=
  ∀ (s : State) (x y n : Nibble),
    let named : Prop := s.cfg.vfAlias = .fault ∧ (x = flagReg ∨ y = flagReg)
    let shiftNamed : Prop := s.cfg.vfAlias = .fault ∧ (x = flagReg ∨ (y = flagReg ∧ s.cfg.quirkShift = .shiftVY))
    (exec (.addReg x y) s = .refused .vfOperand ↔ named) ∧
    (exec (.subReg x y) s = .refused .vfOperand ↔ named) ∧
    (exec (.subn x y) s = .refused .vfOperand ↔ named) ∧
    (exec (.shr x y) s = .refused .vfOperand ↔ shiftNamed) ∧
    (exec (.shl x y) s = .refused .vfOperand ↔ shiftNamed) ∧
    (exec (.drw x y n) s = .refused .vfOperand ↔ named)

/-- LD I,NNN (R261): I is NNN zero-extended, for every NNN, and nothing else changes. I has at least the 12 bits
of NNN (16 in R9). -/
def Obligations.LoadIndexZeroExtends : Prop :=
  ∀ (s : State) (nnn : Addr), 12 ≤ s.cfg.iWidth →
    ∃ t, exec (.ldI nnn) s = .next t ∧ t.i = nnn.toNat ∧ t = { s with i := t.i } ∧ s.sameMemory t

/-- RND (R262): the byte the host answers, ANDed with NN; where State holds no answer, some byte. Only V[X]
and what the host supplies change. Where the answer stands is the model's choice (log 7); parameters that make
sense are those of log 1. -/
def Obligations.RandomByteIsMasked : Prop :=
  ∀ (s : State) (x : Nibble) (nn : Byte), s.cfg.Wf →
    (∀ b rest, s.randoms = b :: rest →
      ∃ t, exec (.rnd x nn) s = .next t ∧ t.readV x = (b &&& nn).toNat ∧ t = { s with v := t.v, randoms := rest } ∧
        (∀ r, r ≠ x → t.readV r = s.readV r) ∧ s.sameMemory t) ∧
    (s.randoms = [] →
      ∃ t, exec (.rnd x nn) s = .next t ∧ (∃ b : Byte, t.readV x = (b &&& nn).toNat) ∧
        t = { s with v := t.v, free := t.free } ∧ (∀ r, r ≠ x → t.readV r = s.readV r) ∧ s.sameMemory t)

/-! ## Framebuffer -/

/-- CLS (R300): every pixel is off, the screen has its size, and nothing else changes. -/
def Obligations.ClsTurnsEveryPixelOff : Prop :=
  ∀ s : State, ∃ t, exec .cls s = .next t ∧ (∀ Y X, pixel t.fb Y X = false) ∧ fbShaped s.cfg t.fb ∧
    t = { s with fb := t.fb } ∧ s.sameMemory t

/-- DRW (R302 to R306, R308): with the drawn rows in bounds, every pixel is XORed with the sprite's bit there,
clipped at both edges, VF is 1 exactly when a set bit met a pixel that was on, and nothing else changes, the
screen's size included.
For X or Y = F it rests on the spec's decision D6 (log 18); parameters that make sense are those of log 1. -/
def Obligations.DrawXorsTheSpriteAndSetsCollision : Prop :=
  ∀ (s : State) (x y n : Nibble) (x0 y0 : Nat), s.cfg.Wf → s.sequential ∨ (x ≠ flagReg ∧ y ≠ flagReg) →
    x0 = s.readV x % s.cfg.dispW → y0 = s.readV y % s.cfg.dispH →
    (∀ r, r < n.toNat → y0 + r < s.cfg.dispH → s.i + r < s.cfg.memSize) →
    ∃ t, exec (.drw x y n) s = .next t ∧
      (∀ Y X, pixel t.fb Y X =
        (pixel s.fb Y X ^^ (decide (Y < s.cfg.dispH ∧ X < s.cfg.dispW) && s.spriteBit x0 y0 n.toNat Y X))) ∧
      t.readV flagReg = flagValue (∃ (Y : Fin s.cfg.dispH) (X : Fin s.cfg.dispW),
        s.spriteBit x0 y0 n.toNat Y X = true ∧ pixel s.fb Y X = true) ∧
      (fbShaped s.cfg s.fb → fbShaped s.cfg t.fb) ∧
      (∀ r, r ≠ flagReg → t.readV r = s.readV r) ∧ t = { s with v := t.v, fb := t.fb } ∧ s.sameMemory t

/-- DRW (R307): the first drawn row outside memory aborts with its address. The spec's decision D7
(log 18); what stays in an abort is the model's reading (log 10). -/
def Obligations.DrawOutsideMemoryAborts : Prop :=
  ∀ (s : State) (x y n : Nibble) (r : Nat), s.sequential ∨ (x ≠ flagReg ∧ y ≠ flagReg) →
    r < n.toNat → s.readV y % s.cfg.dispH + r < s.cfg.dispH → s.cfg.memSize ≤ s.i + r →
    (∀ q, q < r → s.i + q < s.cfg.memSize) →
    abortsWith (exec (.drw x y n) s) (.memOutOfBounds (s.i + r)) s

/-- Drawing the same sprite twice at the same place restores the framebuffer, the second draw leaves VF = 1 when
the first turned at least one pixel on, and a draw on an empty framebuffer leaves VF = 0 (R311).
Parameters that make sense are those of log 1. -/
def Obligations.DrawingTwiceRestoresTheScreen : Prop :=
  ∀ (s t u : State) (x y n : Nibble) (p : Nat), s.cfg.Wf → x ≠ flagReg → y ≠ flagReg → s.status = .running →
    exec (.drw x y n) s = .next t → t.status = .running → exec (.drw x y n) { t with pc := p } = .next u →
    u.status = .running ∧ (∀ Y X, pixel u.fb Y X = pixel s.fb Y X) ∧ (fbShaped s.cfg s.fb → u.fb = s.fb) ∧
      ((∃ Y X, pixel s.fb Y X = false ∧ pixel t.fb Y X = true) → u.readV flagReg = 1) ∧
      ((∀ Y X, pixel s.fb Y X = false) → t.readV flagReg = 0)

/-! ## Unimplemented opcodes -/

/-- UNIMPL (R340), at the level of the step: an unimplemented word at pc is reported with its address and
itself, pc moves past it, and nothing else changes. The report's contents are the spec's decision D27 (log 21);
parameters that make sense are those of log 1. -/
def Obligations.UnimplementedWordIsReportedAndSkipped : Prop :=
  ∀ (s t : State) (w : Word), s.cfg.Wf → s.live → s.cycleNext t → s.cfg.pcOk (s.pc + 2) →
    w = s.byteAt s.pc ++ s.byteAt (s.pc + 1) → isUnimplWord s.cfg.extEF w = true →
    step s = .next { t with pc := s.pc + 2, reports := s.reports ++ [.unimplementedOpcode s.pc w] }

/-- UNIMPL completes in every state: exec appends the event of the word, with pc - 2 as its address (log 13),
and changes nothing else (R340, R404). -/
def Obligations.UnimplOnlyReports : Prop :=
  ∀ (s : State) (w : Word), ∃ t, exec (.unimpl w) s = .next t ∧
    t = { s with reports := s.reports ++ [.unimplementedOpcode (s.pc - 2) w] } ∧ s.sameMemory t

/-! ## The extension -/

/-- SKP and SKNP (R361, R362): an index above 15 is refused; else one poll is made, and the instruction skips on
the key's state: taken, pc moves on by 2, or PC_OUT_OF_RANGE above `MEM_SIZE - 2`; not taken, wherever pc is,
nothing changes but what the poll uses up. General knowledge and the spec's decision D21 (logs 14 and 16); one
poll of all 16 keys is the model's choice (log 8), and what stays in an abort its reading (log 10). Parameters that
make sense are those of log 1. -/
def Obligations.KeySkipsPollTheNamedKey : Prop :=
  ∀ (s t : State) (x : Nibble) (keys : KeySet) (pressed : Bool), s.cfg.Wf → s.pollKeys = (keys, t) →
    pressed = keys.getLsbD (s.readV x) →
    (15 < s.readV x →
      exec (.skp x) s = .refused .keyIndexRange ∧ exec (.sknp x) s = .refused .keyIndexRange) ∧
    (s.readV x ≤ 15 →
      (pressed = true → s.cfg.pcOk (s.pc + 2) →
        exec (.skp x) s = .next { t with pc := s.pc + 2 } ∧ t.mem = s.mem) ∧
      (pressed = true → ¬s.cfg.pcOk (s.pc + 2) →
        abortsWith (exec (.skp x) s) (.pcOutOfRange (s.pc + 2)) s) ∧
      (pressed = false → exec (.skp x) s = .next t ∧ t.pc = s.pc ∧ t.mem = s.mem) ∧
      (pressed = false → s.cfg.pcOk (s.pc + 2) →
        exec (.sknp x) s = .next { t with pc := s.pc + 2 } ∧ t.mem = s.mem) ∧
      (pressed = false → ¬s.cfg.pcOk (s.pc + 2) →
        abortsWith (exec (.sknp x) s) (.pcOutOfRange (s.pc + 2)) s) ∧
      (pressed = true → exec (.sknp x) s = .next t ∧ t.pc = s.pc ∧ t.mem = s.mem)) ∧
    t = { s with keyPolls := t.keyPolls, free := t.free }

/-- A poll gives the host's next answer, uses it up, and changes only what the host supplies (R417; the
model's choice, log 8). -/
def Obligations.PollGivesTheHostsAnswer : Prop :=
  ∀ s : State,
    (∀ keys rest, s.keyPolls = keys :: rest → s.pollKeys = (keys, { s with keyPolls := rest })) ∧
    (s.keyPolls = [] → s.pollKeys.2 = { s with free := s.free + 1 })

/-- LD Vx,K (R364): the lowest pressed key goes to V[X]; with none pressed the instruction runs again, pc
going back to its own address. General knowledge and the spec's decision D23 (logs 14 and 24); that the lowest
key is looked for in ONE poll of all 16 keys is the model's choice (log 8), unsafe where the host answers key by
key. Parameters that make sense are those of log 1. -/
def Obligations.KeyWaitTakesTheLowestKeyOrRepeats : Prop :=
  ∀ (s : State) (x : Nibble), s.cfg.Wf →
    (∀ k, k < 16 → s.pollKeys.1.getLsbD k = true → (∀ j, j < k → s.pollKeys.1.getLsbD j = false) →
      ∃ t, exec (.ldVxK x) s = .next t ∧ t.readV x = k ∧ (∀ r, r ≠ x → t.readV r = s.readV r) ∧
        t = { s.pollKeys.2 with v := t.v } ∧ s.sameMemory t) ∧
    (s.pollKeys.1 = 0#16 → 2 ≤ s.pc → s.cfg.pcOk s.pc →
      ∃ t, exec (.ldVxK x) s = .next t ∧ t.pc + 2 = s.pc ∧ t = { s.pollKeys.2 with pc := t.pc } ∧
        s.sameMemory t)

/-- LD Vx,DT; LD DT,Vx; LD ST,Vx (R363, R365, R366): the one register is written, with the value kept to its width
(the whole value where both have the 8 bits of R9, log 1), and nothing else changes. General knowledge (log 14). -/
def Obligations.TimerMovesCopyOneByte : Prop :=
  ∀ (s : State) (x : Nibble),
    (∃ t, exec (.ldVxDT x) s = .next t ∧ t.readV x = s.dt % 2 ^ s.cfg.vWidth ∧ s.onlyRegsChange t [x]) ∧
    (∃ t, exec (.ldDTVx x) s = .next t ∧ t = { s with dt := s.readV x % 2 ^ s.cfg.timerWidth } ∧ s.sameMemory t) ∧
    (∃ t, exec (.ldSTVx x) s = .next t ∧ t = { s with st := s.readV x % 2 ^ s.cfg.timerWidth } ∧ s.sameMemory t) ∧
    (s.InWidths → s.cfg.timerWidth = s.cfg.vWidth →
      s.dt % 2 ^ s.cfg.vWidth = s.dt ∧ s.readV x % 2 ^ s.cfg.timerWidth = s.readV x)

/-- ADD I,Vx and LD F,Vx (R367, R368): I wraps modulo 2 to its width (65536 with the 16 bits of R9, log 1),
or points at the glyph of the low nibble; VF and all else stay. General knowledge and the spec's decision D22
(logs 14 and 24). -/
def Obligations.IndexAddWrapsAndGlyphsAreFiveBytes : Prop :=
  ∀ (s : State) (x : Nibble),
    (∃ t, exec (.addI x) s = .next t ∧ t.i = (s.i + s.readV x) % 2 ^ s.cfg.iWidth ∧
      t = { s with i := t.i } ∧ s.sameMemory t) ∧
    (∃ t, exec (.ldF x) s = .next t ∧ t.i = (s.cfg.fontBase + 5 * (s.readV x % 16)) % 2 ^ s.cfg.iWidth ∧
      t = { s with i := t.i } ∧ s.sameMemory t)

/-- LD B,Vx (R369): the decimal digits at I, I + 1, I + 2, every other byte and all else as before; or
MEM_OUT_OF_BOUNDS at the first address outside memory. MemWrite stores a byte, `u8` (R14), of each digit, which is
the digit where V has the 8 bits of R9. What stays in an abort is the model's reading (log 10).
General knowledge (log 14). -/
def Obligations.BcdStoresThreeDigits : Prop :=
  ∀ (s : State) (x : Nibble), Memory.wf s.mem = true →
    (s.i + 2 < s.cfg.memSize →
      ∃ t, exec (.ldB x) s = .next t ∧
        (∀ a, s.i = a → (t.byteAt a).toNat = s.readV x / 100 % 256 ∧
          (t.byteAt (a + 1)).toNat = s.readV x / 10 % 10 ∧
          (t.byteAt (a + 2)).toNat = s.readV x % 10 ∧
          ∀ b, (b < a ∨ a + 2 < b) → t.byteAt b = s.byteAt b) ∧
        t = { s with mem := t.mem } ∧ Memory.wf t.mem = true) ∧
    (s.cfg.memSize ≤ s.i + 2 → abortsWith (exec (.ldB x) s)
      (.memOutOfBounds (max s.i s.cfg.memSize)) s)

/-- LD [I],Vx (R370): V0 to V[X] at I upward, each as its byte `u8` (R14; the value itself with the 8 bits of R9),
every other byte and all else as before, I moved (modulo 2 to its width) only under `Increment`; or
MEM_OUT_OF_BOUNDS at the first address outside memory.
What stays in an abort is the model's reading (log 10).
General knowledge and the spec's decision D22 (logs 14 and 24). -/
def Obligations.StoreRegistersWritesTheBlock : Prop :=
  ∀ (s : State) (x : Nibble), Memory.wf s.mem = true →
    (s.i + x.toNat < s.cfg.memSize →
      ∃ t, exec (.storeRegs x) s = .next t ∧
        (∀ a, s.i = a → (∀ r : Nibble, r.toNat ≤ x.toNat → (t.byteAt (a + r.toNat)).toNat = s.readV r % 256) ∧
          ∀ b, (b < a ∨ a + x.toNat < b) → t.byteAt b = s.byteAt b) ∧
        t.i = (if s.cfg.quirkLoadStoreI = .unchanged then s.i
          else (s.i + x.toNat + 1) % 2 ^ s.cfg.iWidth) ∧
        t = { s with mem := t.mem, i := t.i } ∧ Memory.wf t.mem = true) ∧
    (s.cfg.memSize ≤ s.i + x.toNat → abortsWith (exec (.storeRegs x) s)
      (.memOutOfBounds (max s.i s.cfg.memSize)) s)

/-- LD Vx,[I] (R371): V0 to V[X] from I upward, every other register and all memory as before, I moved (modulo 2
to its width) only under `Increment`; or MEM_OUT_OF_BOUNDS at the first address outside memory. Parameters that make
sense are those of log 1. What stays in an abort is the model's reading (log 10).
General knowledge and the spec's decision D22 (logs 14 and 24). -/
def Obligations.LoadRegistersReadsTheBlock : Prop :=
  ∀ (s : State) (x : Nibble), s.cfg.Wf →
    (s.i + x.toNat < s.cfg.memSize →
      ∃ t, exec (.loadRegs x) s = .next t ∧
        (∀ r : Nibble, r.toNat ≤ x.toNat → t.readV r = (s.byteAt (s.i + r.toNat)).toNat) ∧
        (∀ r : Nibble, x.toNat < r.toNat → t.readV r = s.readV r) ∧
        t.i = (if s.cfg.quirkLoadStoreI = .unchanged then s.i
          else (s.i + x.toNat + 1) % 2 ^ s.cfg.iWidth) ∧
        t = { s with v := t.v, i := t.i } ∧ s.sameMemory t) ∧
    (s.cfg.memSize ≤ s.i + x.toNat → abortsWith (exec (.loadRegs x) s)
      (.memOutOfBounds (max s.i s.cfg.memSize)) s)

/-! ## Timers and the session -/

/-- A tick of a running session (R410): the timer counts down by one, or, at 0, stays and TIMER_IDLE is
reported; nothing else changes but that the host's operation is taken (log 9).
Two separate ticks are the spec's decision D12 (log 23). In every state of a run the timers hold numbers of their
width (the invariant, log 1). -/
def Obligations.TickCountsDownOrReportsIdle : Prop :=
  ∀ (s t : State), s.InWidths → s.live →
    (s.takeOp = (.tickDelay, t) →
      (0 < s.dt → ∃ u, step s = .next u ∧ u.dt + 1 = s.dt ∧ u = { t with dt := u.dt }) ∧
      (s.dt = 0 → step s = .next { t with reports := s.reports ++ [.timerIdle .delay] })) ∧
    (s.takeOp = (.tickSound, t) →
      (0 < s.st → ∃ u, step s = .next u ∧ u.st + 1 = s.st ∧ u = { t with st := u.st }) ∧
      (s.st = 0 → step s = .next { t with reports := s.reports ++ [.timerIdle .sound] }))

/-- `n` ticks of a timer: it reaches 0 and stays there, each tick past 0 appends one TIMER_IDLE (R410, R411), and
the other timer is untouched, two separate ticks being the spec's decision D12 (log 23). In every state of a run the
timers hold numbers of their width (the invariant, log 1). -/
def Obligations.RepeatedTicksStopAtZero : Prop :=
  ∀ (n : Nat) (k : Timer) (s : State), s.InWidths →
    ((State.tick k)^[n] s).timer k = s.timer k - n ∧
    ((State.tick k)^[n] s).reports = s.reports ++ List.replicate (n - s.timer k) (.timerIdle k) ∧
    (∀ j, j ≠ k → ((State.tick k)^[n] s).timer j = s.timer j)

/-- An aborted session takes no step (R402), and neither does one that the host has shut down (R414): the model
answers a fault that says so (logs 11 and 12). -/
def Obligations.NoOperationAfterAbortOrShutdown : Prop :=
  (∀ (s : State) (f : Fatal), s.status = .aborted f → step s = .fault (.sessionAborted f)) ∧
  (∀ s : State, s.status = .running → s.ended = true → step s = .fault .sessionEnded) ∧
  (∀ s t : State, s.live → s.takeOp = (.shutdown, t) → step s = .next { t with ended := true })

/-- Construct (R501, R502, R503): a font of other than `FONT_LEN` bytes is FONT_MALFORMED, then a program above
`MEM_SIZE - LOAD_OFFSET` bytes is PROGRAM_TOO_LARGE with its length; neither construction runs.
The second is the spec's decision D18 (log 25). -/
def Obligations.ConstructRejectsBadFontsAndLongPrograms : Prop :=
  ∀ (cfg : Config) (font : List Nat) (program : List Byte), cfg.Wf →
    ((font.length ≠ cfg.fontLen ∨ ∃ k ∈ font, 256 ≤ k) →
      (construct cfg font program).status = .aborted .fontMalformed) ∧
    (font.length = cfg.fontLen → (∀ k ∈ font, k < 256) → cfg.memSize < cfg.loadOffset + program.length →
      (construct cfg font program).status = .aborted (.programTooLarge program.length))

/-- Construct (R501): a good font and program are loaded byte for byte, with pc at `LOAD_OFFSET`, SP 0, Running and
an empty log, under both settings of RESET_FILL; under Zero every other byte, register, timer and pixel is 0,
the model following R50 (decisions D1 to D3 of the spec, logs 3 to 5). -/
def Obligations.ConstructLoadsFontAndProgram : Prop :=
  ∀ (cfg : Config) (font : List Nat) (program : List Byte), cfg.Wf → font.length = cfg.fontLen →
    (∀ k ∈ font, k < 256) → cfg.loadOffset + program.length ≤ cfg.memSize →
    ∃ s, construct cfg font program = s ∧ s.status = .running ∧ s.reports = [] ∧ s.pc = cfg.loadOffset ∧
      s.sp = 0 ∧ s.cfg = cfg ∧ s.ended = false ∧
      (∀ k, (h : k < font.length) → (s.byteAt (cfg.fontBase + k)).toNat = font[k]) ∧
      (∀ k, (h : k < program.length) → s.byteAt (cfg.loadOffset + k) = program[k]) ∧
      (cfg.resetFill = .zero →
        (∀ a, a < cfg.memSize → (a < cfg.fontBase ∨ cfg.fontBase + cfg.fontLen ≤ a) →
          (a < cfg.loadOffset ∨ cfg.loadOffset + program.length ≤ a) → s.byteAt a = 0#8) ∧
        (∀ r, s.readV r = 0) ∧ s.i = 0 ∧ s.dt = 0 ∧ s.st = 0 ∧ (∀ k, s.entry k = 0) ∧
        ∀ Y X, pixel s.fb Y X = false)

/-- The reset state is what Construct gives for the default font, no program and the default parameters
(R50, R501; the model's choice of font and parameters, logs 2 to 5). -/
def Obligations.ResetIsConstructWithDefaults : Prop :=
  construct {} (defaultFont.map BitVec.toNat) [] = State.reset

/-! ## Invariants -/

/-- Every step keeps the invariant: tables of the sizes and registers of the widths that the parameters give (R9,
log 1), canonical memory inside the address space, pc at most `MEM_SIZE - 2` while running (R33, R36), live stack
entries that RET can take (R200). -/
def Obligations.StepKeepsTheInvariant : Prop :=
  ∀ s t : State, s.Inv → step s = .next t → t.Inv

/-- Every construction, whatever the font, the program and the parameters that make sense, gives a state with the
invariant. -/
def Obligations.ConstructEstablishesTheInvariant : Prop :=
  State.reset.Inv ∧
  ∀ (cfg : Config) (font : List Nat) (program : List Byte), cfg.Wf → (construct cfg font program).Inv

/-- Two memories in canonical form that read alike at every address are equal. -/
def Obligations.CanonicalMemoriesAreEqualWhenTheyReadAlike : Prop :=
  ∀ m n : Memory, Memory.wf m = true → Memory.wf n = true → (∀ a, m.read a = n.read a) → m = n

/-! ## Whole-machine rules -/

/-- Every instruction answers a next state, an abort counting as one (its status is Aborted: the model's form,
log 10), or is refused as the spec refuses it (R107, R264, R372). No instruction stops with a fault: the model's
two faults belong to the step alone (log 11). -/
def Obligations.EveryInstructionRunsOrIsRefusedByTheSpec : Prop :=
  ∀ (i : Instr) (s : State), (∃ t, exec i s = .next t) ∨
    (exec i s = .refused .vfOperand ∧ s.cfg.vfAlias = .fault) ∨
    (exec i s = .refused .keyIndexRange ∧ ∃ x, (i = .skp x ∨ i = .sknp x) ∧ 15 < s.readV x)

/-- The parameters are fixed for the session: no step changes them (R10). -/
def Obligations.NoStepChangesTheConfiguration : Prop :=
  ∀ s t : State, step s = .next t → t.cfg = s.cfg

/-- The parameters of a session that names none are those of R9's table (I1, D25); FONT is the argument of Construct. -/
def Obligations.DefaultParametersAreThoseOfRule9 : Prop :=
  State.reset.cfg =
    { memSize := 4096, loadOffset := 0x200, fontBase := 0x000, fontLen := 80, numV := 16, vWidth := 8, iWidth := 16,
      pcWidth := 16, stackDepth := 16, stackWidth := 16, dispW := 64, dispH := 32, timerWidth := 8, tickHz := 60,
      quirkShift := .shiftVX, quirkJump := .jumpV0, vfAlias := .sequential, resetFill := .zero, extEF := false,
      quirkLoadStoreI := .unchanged }

/-- No rule depends on the tick rate (R9): with another rate every step answers the same outcome, but for the rate.
That two aborted states agree is the model's: one counter numbers what R402 leaves open (log 10). -/
def Obligations.TickRateInfluencesNoStep : Prop :=
  ∀ (s : State) (hz : Nat),
    (∀ t, step s = .next t → step { s with cfg.tickHz := hz } = .next { t with cfg.tickHz := hz }) ∧
    (∀ f, step s = .fault f → step { s with cfg.tickHz := hz } = .fault f) ∧
    (∀ r, step s = .refused r → step { s with cfg.tickHz := hz } = .refused r)

/-- A running instruction writes no V register but those of the table of R32.
For the extension it is general knowledge (log 14). -/
def Obligations.OnlyTheListedRegistersAreWritten : Prop :=
  ∀ (i : Instr) (s t : State) (r : Nibble), exec i s = .next t → t.status = .running →
    Instr.mayWriteV i r = false → t.readV r = s.readV r

/-- A running instruction that is no jump, call, return or skip (and no key wait) leaves pc as fetch left it
(R35). For the extension it is general knowledge (log 14). -/
def Obligations.OnlyControlFlowWritesPc : Prop :=
  ∀ (i : Instr) (s t : State), exec i s = .next t → t.status = .running → Instr.mayWritePc i = false → t.pc = s.pc

/-- Only CLS and DRW change the framebuffer (R43), only CALL and RET reach the stack (R39), and only LD I and
the extension's four I instructions change I (R38). For the extension it is general knowledge (log 14). -/
def Obligations.FramebufferStackAndIndexHaveTheirOwnWriters : Prop :=
  ∀ (i : Instr) (s t : State), exec i s = .next t → t.status = .running →
    (t.fb ≠ s.fb → i = .cls ∨ ∃ x y n, i = .drw x y n) ∧
    (t.stack ≠ s.stack ∨ t.sp ≠ s.sp → i = .ret ∨ ∃ nnn, i = .call nnn) ∧
    (t.i ≠ s.i → (∃ nnn, i = .ldI nnn) ∨
      ∃ x, i = .addI x ∨ i = .ldF x ∨ i = .storeRegs x ∨ i = .loadRegs x)

/-- With EXT_EF = false no step that stays Running writes memory, and no cycle that does so writes a timer or
polls a key (R42, R72, R506). -/
def Obligations.MinimumCoreWritesNoMemoryAndNoTimer : Prop :=
  ∀ s t : State, s.cfg.extEF = false → t.status = .running →
    (step s = .next t → s.sameMemory t) ∧
    (s.cycle = .next t → t.dt = s.dt ∧ t.st = s.st ∧ t.keyPolls = s.keyPolls)

/-- With EXT_EF = false the result of a cycle does not depend on the timers (R510): from two states that differ
in DT and ST alone, it gives results that differ in DT and ST alone, or the same abort. That even the aborted
states agree is the model's: what R402 leaves open is numbered by one counter (log 10), as the host's answers are
(log 7), and both runs stand at the same number. -/
def Obligations.TimersDoNotInfluenceTheMinimumCore : Prop :=
  ∀ (s t : State) (d e : Nat), s.cfg.extEF = false → s.status = .running → s.cycle = .next t →
    { s with dt := d, st := e }.cycle = .next (if t.status = .running then { t with dt := d, st := e } else t)

/-- One cycle raises at most one condition (R405): the log grows by at most one event, and never in a cycle
that aborts. -/
def Obligations.OneCycleRaisesAtMostOneCondition : Prop :=
  ∀ s t : State, s.status = .running → s.cycle = .next t →
    t.reports = s.reports ∨ (t.status = .running ∧ ∃ r, t.reports = s.reports ++ [r])

/-- A store is seen by the very next fetch (R84): after LD [I],Vx has stored a word's two bytes at pc, the next
cycle runs that word. The spec's decision D17 (log 27); the next operation is the schedule's or open (log 9). -/
def Obligations.StoredWordIsFetchedNext : Prop :=
  ∀ (s t u : State) (x : Nibble) (w : Word), s.Inv → s.live → s.cfg.pcOk (s.pc + 2) → s.i = s.pc →
    1 ≤ x.toNat → w = BitVec.ofNat 8 (s.readV 0#4) ++ BitVec.ofNat 8 (s.readV 1#4) →
    s.i + x.toNat < s.cfg.memSize →
    exec (.storeRegs x) s = .next t → t.cycleNext u →
    step t = exec (decode s.cfg.extEF w) { u with pc := s.pc + 2 }
end

