-- ==== Sys2Proof/Laws/Config.lean ====
section
/-! SUPPORT. The parameters of R9 describe a machine on which the rules make sense. -/

namespace Sys2Proof

theorem Config.wf_default : Config.Wf {} := by
  constructor <;> decide

/-- A value that pc may hold fits into pc. -/
theorem Config.Wf.pcOk_lt {c : Config} (h : c.Wf) {v : Nat} (hv : c.pcOk v) : v < 2 ^ c.pcWidth := by
  have := h.pcWidth
  unfold Config.pcOk at hv
  omega

/-- A value that pc may hold fits into a stack entry. -/
theorem Config.Wf.pcOk_lt_stack {c : Config} (h : c.Wf) {v : Nat} (hv : c.pcOk v) : v < 2 ^ c.stackWidth := by
  have := h.stackWidth
  unfold Config.pcOk at hv
  omega

/-- A byte fits into V. -/
theorem Config.Wf.byte_lt {c : Config} (h : c.Wf) (b : Byte) : b.toNat < 2 ^ c.vWidth :=
  Nat.lt_of_lt_of_le b.isLt (Nat.pow_le_pow_right (by decide) h.vWidth)

/-- An address NNN fits into I. -/
theorem Config.Wf.addr_lt {c : Config} (h : c.Wf) (nnn : Addr) : nnn.toNat < 2 ^ c.iWidth :=
  Nat.lt_of_lt_of_le nnn.isLt (Nat.pow_le_pow_right (by decide) h.iWidth)

end Sys2Proof
end

