-- ==== Sys2Proof/Laws/Memory.lean ====
section
/-! SUPPORT. The laws of memory: reading a write, and that every memory operation keeps the canonical form. -/

namespace Sys2Proof.Machine

/-! ## Read after write -/

theorem Memory.read_write_same (m : Memory) (a : Nat) (v : Byte) (lo : Nat) (h : Memory.wfFrom lo m = true) :
    (m.write a v).read a = v := by
  induction m generalizing lo with
  | nil =>
    unfold Memory.write
    split <;> simp_all [Memory.read]
  | cons c rest ih =>
    obtain ⟨b, u⟩ := c
    simp only [Memory.wfFrom, Bool.and_eq_true, decide_eq_true_eq] at h
    have hrest : ∀ lo' (m : Memory), a < lo' → Memory.wfFrom lo' m = true → m.read a = Memory.unlisted a := by
      intro lo' m hlo hm
      induction m generalizing lo' with
      | nil => rfl
      | cons c' rest' ih' =>
        obtain ⟨b', u'⟩ := c'
        simp only [Memory.wfFrom, Bool.and_eq_true, decide_eq_true_eq] at hm
        have hne : a ≠ b' := by omega
        simp only [Memory.read, hne, if_false]
        exact ih' (b' + 1) (by omega) hm.2
    unfold Memory.write
    split
    · rename_i hlt
      split
      · rename_i hv
        have hne : a ≠ b := by omega
        simp only [Memory.read, hne, if_false]
        rw [hrest (b + 1) rest (by omega) h.2, hv]
      · simp [Memory.read]
    · split
      · rename_i hab
        split
        · rename_i hv
          rw [hrest (b + 1) rest (by omega) h.2, hv]
        · simp [Memory.read]
      · rename_i hab
        simp only [Memory.read, hab, if_false]
        exact ih (b + 1) h.2

theorem Memory.read_write_other (m : Memory) {a c : Nat} (v : Byte) (hne : c ≠ a) :
    (m.write a v).read c = m.read c := by
  induction m with
  | nil =>
    unfold Memory.write
    split <;> simp [Memory.read, hne]
  | cons d rest ih =>
    obtain ⟨b, u⟩ := d
    unfold Memory.write
    split
    · split <;> simp [Memory.read, hne]
    · split
      · rename_i hab
        subst hab
        split <;> simp [Memory.read, hne]
      · simp only [Memory.read, ih]

/-! ## The canonical form -/

theorem Memory.wfFrom_mono {lo lo' : Nat} (hle : lo' ≤ lo) {m : Memory} (h : Memory.wfFrom lo m = true) :
    Memory.wfFrom lo' m = true := by
  cases m with
  | nil => rfl
  | cons c rest =>
    obtain ⟨b, u⟩ := c
    simp only [Memory.wfFrom, Bool.and_eq_true, decide_eq_true_eq] at h ⊢
    exact ⟨⟨by omega, h.1.2⟩, h.2⟩

theorem Memory.wfFrom_write {lo : Nat} {m : Memory} (a : Nat) (v : Byte) (h : Memory.wfFrom lo m = true)
    (hlo : lo ≤ a) : Memory.wfFrom lo (m.write a v) = true := by
  induction m generalizing lo with
  | nil =>
    unfold Memory.write
    split
    · rfl
    · rename_i hv
      simp [Memory.wfFrom, hlo, hv]
  | cons c rest ih =>
    obtain ⟨b, u⟩ := c
    have h0 := h
    simp only [Memory.wfFrom, Bool.and_eq_true, decide_eq_true_eq] at h
    unfold Memory.write
    split
    · rename_i hlt
      split
      · exact h0
      · rename_i hv
        simp only [Memory.wfFrom, Bool.and_eq_true, decide_eq_true_eq, bne_iff_ne, ne_eq]
        exact ⟨⟨hlo, hv⟩, ⟨by omega, by simpa using h.1.2⟩, h.2⟩
    · split
      · rename_i hab
        subst hab
        split
        · exact Memory.wfFrom_mono (by omega) h.2
        · rename_i hv
          simp only [Memory.wfFrom, Bool.and_eq_true, decide_eq_true_eq, bne_iff_ne, ne_eq]
          exact ⟨⟨hlo, hv⟩, h.2⟩
      · rename_i hge hab
        simp only [Memory.wfFrom, Bool.and_eq_true, decide_eq_true_eq]
        exact ⟨h.1, ih h.2 (by omega)⟩

/-- A write keeps the canonical form. -/
theorem Memory.wf_write {m : Memory} (a : Nat) (v : Byte) (h : Memory.wf m = true) :
    Memory.wf (m.write a v) = true :=
  Memory.wfFrom_write a v h (Nat.zero_le a)

/-- A write below `n` keeps memory below `n`. -/
theorem Memory.within_write {n : Nat} {m : Memory} (a : Nat) (v : Byte) (h : Memory.within n m = true) (ha : a < n) :
    Memory.within n (m.write a v) = true := by
  induction m with
  | nil =>
    unfold Memory.write
    split <;> simp [Memory.within, ha]
  | cons c rest ih =>
    obtain ⟨b, u⟩ := c
    simp only [Memory.within, List.all_cons, Bool.and_eq_true, decide_eq_true_eq] at h ih
    unfold Memory.write
    split
    · split <;> simp only [Memory.within, List.all_cons, Bool.and_eq_true, decide_eq_true_eq] <;> tauto
    · split
      · split <;> simp only [Memory.within, List.all_cons, Bool.and_eq_true, decide_eq_true_eq] <;> tauto
      · simp only [Memory.within, List.all_cons, Bool.and_eq_true, decide_eq_true_eq]
        exact ⟨h.1, ih h.2⟩

theorem Memory.read_write {m : Memory} (a c : Nat) (v : Byte) (h : Memory.wf m = true) :
    (m.write a v).read c = if c = a then v else m.read c := by
  split
  · rename_i hca; subst hca; exact Memory.read_write_same m c v 0 h
  · rename_i hca; exact Memory.read_write_other m v hca

/-! ## Lists of bytes -/

theorem Memory.wf_writeBytes {m : Memory} (a : Nat) (vs : List Byte) (h : Memory.wf m = true) :
    Memory.wf (m.writeBytes a vs) = true := by
  induction vs generalizing m a with
  | nil => exact h
  | cons v vs ih => exact ih (a + 1) (Memory.wf_write a v h)

theorem Memory.within_writeBytes {n : Nat} {m : Memory} (a : Nat) (vs : List Byte) (h : Memory.within n m = true)
    (ha : a + vs.length ≤ n) : Memory.within n (m.writeBytes a vs) = true := by
  induction vs generalizing m a with
  | nil => exact h
  | cons v vs ih =>
    simp only [List.length_cons] at ha
    exact ih (a + 1) (Memory.within_write a v h (by omega)) (by omega)

theorem Memory.read_writeBytes_outside (m : Memory) (a : Nat) (vs : List Byte) {c : Nat}
    (hc : c < a ∨ a + vs.length ≤ c) : (m.writeBytes a vs).read c = m.read c := by
  induction vs generalizing m a with
  | nil => rfl
  | cons v vs ih =>
    simp only [List.length_cons] at hc
    simp only [Memory.writeBytes]
    rw [ih (m.write a v) (a + 1) (by omega), Memory.read_write_other m v (by omega)]

theorem Memory.read_writeBytes_inside {m : Memory} (a : Nat) (vs : List Byte) (h : Memory.wf m = true)
    {k : Nat} (hk : k < vs.length) :
    (m.writeBytes a vs).read (a + k) = vs[k] := by
  induction vs generalizing m a k with
  | nil => simp at hk
  | cons v vs ih =>
    simp only [List.length_cons] at hk
    simp only [Memory.writeBytes]
    cases k with
    | zero =>
      rw [Memory.read_writeBytes_outside _ _ _ (by omega)]
      exact Memory.read_write_same m a v 0 h
    | succ k =>
      have := ih (m := m.write a v) (a + 1) (Memory.wf_write a v h) (k := k) (by omega)
      simpa [Nat.add_assoc, Nat.add_comm 1 k] using this

/-! ## Fill -/

/-- The cells that `fill` lists for `n` addresses from `lo` upward. -/
def Memory.fillCells (f : Nat → Byte) (lo n : Nat) : Memory :=
  ((List.range' lo n).filter (fun a => f a != Memory.unlisted a)).map (fun a => (a, f a))

theorem Memory.fill_eq (n : Nat) (f : Nat → Byte) : Memory.fill n f = Memory.fillCells f 0 n := by
  unfold Memory.fill Memory.fillCells
  rw [List.range_eq_range']

theorem Memory.fillCells_succ (f : Nat → Byte) (lo n : Nat) :
    Memory.fillCells f lo (n + 1) =
      if f lo = Memory.unlisted lo then Memory.fillCells f (lo + 1) n
      else (lo, f lo) :: Memory.fillCells f (lo + 1) n := by
  by_cases h : f lo = Memory.unlisted lo <;> simp [Memory.fillCells, List.range'_succ, h]

theorem Memory.wfFrom_fillCells (f : Nat → Byte) (lo n : Nat) :
    Memory.wfFrom lo (Memory.fillCells f lo n) = true := by
  induction n generalizing lo with
  | zero => rfl
  | succ n ih =>
    rw [Memory.fillCells_succ]
    have hr := ih (lo + 1)
    split
    · exact Memory.wfFrom_mono (by omega) hr
    · rename_i hv
      simp only [Memory.wfFrom, Bool.and_eq_true, decide_eq_true_eq, bne_iff_ne, ne_eq]
      exact ⟨⟨Nat.le_refl _, hv⟩, hr⟩

/-- `fill` gives a memory in canonical form. -/
theorem Memory.wf_fill (n : Nat) (f : Nat → Byte) : Memory.wf (Memory.fill n f) = true := by
  rw [Memory.fill_eq]
  exact Memory.wfFrom_fillCells f 0 n

/-- `fill` lists no address at or above `n`. -/
theorem Memory.within_fill (n : Nat) (f : Nat → Byte) : Memory.within n (Memory.fill n f) = true := by
  unfold Memory.fill Memory.within
  simp only [List.all_map, List.all_eq_true, List.mem_filter, List.mem_range, Function.comp_apply, decide_eq_true_eq]
  exact fun a ha => ha.1

theorem Memory.read_fillCells (f : Nat → Byte) (lo n a : Nat) :
    (Memory.fillCells f lo n).read a = if lo ≤ a ∧ a < lo + n then f a else Memory.unlisted a := by
  induction n generalizing lo with
  | zero =>
    simp [Memory.fillCells, Memory.read]
  | succ n ih =>
    rw [Memory.fillCells_succ]
    by_cases hv : f lo = Memory.unlisted lo
    · rw [if_pos hv, ih (lo + 1)]
      by_cases ha : a = lo
      · subst ha
        simp [hv]
      · congr 1
        apply propext
        omega
    · rw [if_neg hv]
      by_cases ha : a = lo
      · subst ha
        simp [Memory.read]
      · simp only [Memory.read, ha, if_false, ih (lo + 1)]
        congr 1
        apply propext
        omega

/-- `fill n f` reads as `f` below `n`. -/
theorem Memory.read_fill {n : Nat} (f : Nat → Byte) {a : Nat} (ha : a < n) : (Memory.fill n f).read a = f a := by
  rw [Memory.fill_eq, Memory.read_fillCells, if_pos ⟨Nat.zero_le a, by simpa using ha⟩]

end Sys2Proof.Machine
end

