-- ==== Sys2Proof/Laws/Table.lean ====
section
/-! SUPPORT. The laws of widths and of tables: keeping a number to its width, reading a written entry, lengths, and tables that read alike. -/

namespace Sys2Proof.Machine

theorem keepBits_lt (w n : Nat) : keepBits w n < 2 ^ w := Nat.mod_lt _ (Nat.two_pow_pos w)

/-- A number that fits is kept as it is. -/
theorem keepBits_of_lt {w n : Nat} (h : n < 2 ^ w) : keepBits w n = n := Nat.mod_eq_of_lt h

/-- A flag value fits into any width but 0. -/
theorem keepBits_flag {w : Nat} (h : 0 < w) (c : Prop) [Decidable c] :
    keepBits w (if c then 1 else 0) = if c then 1 else 0 := by
  refine keepBits_of_lt ?_
  have := Nat.one_lt_two_pow (Nat.pos_iff_ne_zero.mp h)
  split <;> omega

variable {α : Type} (d x : α) (k j n : Nat) (t : List α)

/-- An entry written is read back, and no other entry changes. -/
theorem getD_tableSet : (tableSet d k x t).getD j d = if j = k then x else t.getD j d := by
  induction k generalizing j t with
  | zero => cases t <;> cases j <;> simp [tableSet]
  | succ k ih =>
    cases t <;> cases j <;> simp only [tableSet, List.getD_cons_zero, List.getD_cons_succ, ih] <;> simp

theorem length_tableSet : (tableSet d k x t).length = max t.length (k + 1) := by
  induction k generalizing t with
  | zero => cases t <;> simp [tableSet]
  | succ k ih => cases t <;> simp [tableSet, ih]

/-- A write inside the table keeps its length. -/
theorem length_tableSet_of_lt (h : k < t.length) : (tableSet d k x t).length = t.length := by
  rw [length_tableSet]; omega

/-- An entry of the written table is the one written, or an old one. -/
theorem mem_tableSet {y : α} (h : k < t.length) (hy : y ∈ tableSet d k x t) : y = x ∨ y ∈ t := by
  induction k generalizing t with
  | zero => cases t <;> simp_all [tableSet]; tauto
  | succ k ih =>
    cases t with
    | nil => simp at h
    | cons c rest =>
      simp only [tableSet, List.mem_cons, List.length_cons] at h hy ⊢
      have := ih rest (by omega)
      tauto

/-- What holds of the filler, of the entry written and of every old entry holds of every entry of the written
table. -/
theorem forall_mem_tableSet {p : α → Prop} (hd : p d) (hx : p x) (ht : ∀ y ∈ t, p y) :
    ∀ y ∈ tableSet d k x t, p y := by
  induction k generalizing t with
  | zero => cases t <;> simp_all [tableSet]
  | succ k ih =>
    cases t with
    | nil => simpa [tableSet, hd] using ih [] (by simp)
    | cons c rest =>
      simp only [List.mem_cons, forall_eq_or_imp] at ht
      simpa [tableSet, ht.1] using ih rest ht.2

/-- What holds of the filler and of every entry holds of every entry that is read. -/
theorem forall_getD {p : α → Prop} (hd : p d) (ht : ∀ y ∈ t, p y) : p (t.getD k d) := by
  by_cases h : k < t.length
  · have e : t.getD k d = t[k] := by simp [h]
    rw [e]
    exact ht _ (List.getElem_mem h)
  · have e : t.getD k d = d := by simp [Nat.le_of_not_lt h]
    rw [e]
    exact hd

@[simp] theorem length_fit : (fit n d t).length = n := by simp [fit]

/-- A cut table reads as the table where it has entries. -/
theorem getD_fit (h : k < n) : (fit n d t).getD k d = t.getD k d := by simp [fit, h]

theorem getD_replicate : (List.replicate n d).getD k d = d := by
  by_cases h : k < n <;> simp [h]

/-- Tables of one length that read alike are equal. -/
theorem table_ext {t u : List α} (hl : t.length = u.length) (h : ∀ k, k < t.length → t.getD k d = u.getD k d) :
    t = u := by
  apply List.ext_getElem hl
  intro k hk hk'
  have := h k hk
  simpa [hk, hk'] using this

end Sys2Proof.Machine
end

