-- ==== Sys2Proof/Laws/State.lean ====
section
/-! SUPPORT. What each update of State does to each of its fields, and what the reads see of the updates. -/

namespace Sys2Proof.Machine

variable (s : State)

/-! `State.writeV` -/

@[simp] theorem State.writeV_v (x : Nibble) (n : Nat) : (s.writeV x n).v = tableSet 0 x.toNat (keepBits s.cfg.vWidth n) s.v := rfl
@[simp] theorem State.writeV_i (x : Nibble) (n : Nat) : (s.writeV x n).i = s.i := rfl
@[simp] theorem State.writeV_pc (x : Nibble) (n : Nat) : (s.writeV x n).pc = s.pc := rfl
@[simp] theorem State.writeV_sp (x : Nibble) (n : Nat) : (s.writeV x n).sp = s.sp := rfl
@[simp] theorem State.writeV_stack (x : Nibble) (n : Nat) : (s.writeV x n).stack = s.stack := rfl
@[simp] theorem State.writeV_dt (x : Nibble) (n : Nat) : (s.writeV x n).dt = s.dt := rfl
@[simp] theorem State.writeV_st (x : Nibble) (n : Nat) : (s.writeV x n).st = s.st := rfl
@[simp] theorem State.writeV_fb (x : Nibble) (n : Nat) : (s.writeV x n).fb = s.fb := rfl
@[simp] theorem State.writeV_mem (x : Nibble) (n : Nat) : (s.writeV x n).mem = s.mem := rfl
@[simp] theorem State.writeV_status (x : Nibble) (n : Nat) : (s.writeV x n).status = s.status := rfl
@[simp] theorem State.writeV_reports (x : Nibble) (n : Nat) : (s.writeV x n).reports = s.reports := rfl
@[simp] theorem State.writeV_ended (x : Nibble) (n : Nat) : (s.writeV x n).ended = s.ended := rfl
@[simp] theorem State.writeV_cfg (x : Nibble) (n : Nat) : (s.writeV x n).cfg = s.cfg := rfl
@[simp] theorem State.writeV_schedule (x : Nibble) (n : Nat) : (s.writeV x n).schedule = s.schedule := rfl
@[simp] theorem State.writeV_randoms (x : Nibble) (n : Nat) : (s.writeV x n).randoms = s.randoms := rfl
@[simp] theorem State.writeV_keyPolls (x : Nibble) (n : Nat) : (s.writeV x n).keyPolls = s.keyPolls := rfl
@[simp] theorem State.writeV_free (x : Nibble) (n : Nat) : (s.writeV x n).free = s.free := rfl

/-! `State.setFlag` -/

@[simp] theorem State.setFlag_v (c : Bool) : (s.setFlag c).v = tableSet 0 15 (keepBits s.cfg.vWidth (if c then 1 else 0)) s.v := rfl
@[simp] theorem State.setFlag_i (c : Bool) : (s.setFlag c).i = s.i := rfl
@[simp] theorem State.setFlag_pc (c : Bool) : (s.setFlag c).pc = s.pc := rfl
@[simp] theorem State.setFlag_sp (c : Bool) : (s.setFlag c).sp = s.sp := rfl
@[simp] theorem State.setFlag_stack (c : Bool) : (s.setFlag c).stack = s.stack := rfl
@[simp] theorem State.setFlag_dt (c : Bool) : (s.setFlag c).dt = s.dt := rfl
@[simp] theorem State.setFlag_st (c : Bool) : (s.setFlag c).st = s.st := rfl
@[simp] theorem State.setFlag_fb (c : Bool) : (s.setFlag c).fb = s.fb := rfl
@[simp] theorem State.setFlag_mem (c : Bool) : (s.setFlag c).mem = s.mem := rfl
@[simp] theorem State.setFlag_status (c : Bool) : (s.setFlag c).status = s.status := rfl
@[simp] theorem State.setFlag_reports (c : Bool) : (s.setFlag c).reports = s.reports := rfl
@[simp] theorem State.setFlag_ended (c : Bool) : (s.setFlag c).ended = s.ended := rfl
@[simp] theorem State.setFlag_cfg (c : Bool) : (s.setFlag c).cfg = s.cfg := rfl
@[simp] theorem State.setFlag_schedule (c : Bool) : (s.setFlag c).schedule = s.schedule := rfl
@[simp] theorem State.setFlag_randoms (c : Bool) : (s.setFlag c).randoms = s.randoms := rfl
@[simp] theorem State.setFlag_keyPolls (c : Bool) : (s.setFlag c).keyPolls = s.keyPolls := rfl
@[simp] theorem State.setFlag_free (c : Bool) : (s.setFlag c).free = s.free := rfl

/-! `State.writeI` -/

@[simp] theorem State.writeI_v (n : Nat) : (s.writeI n).v = s.v := rfl
@[simp] theorem State.writeI_i (n : Nat) : (s.writeI n).i = keepBits s.cfg.iWidth n := rfl
@[simp] theorem State.writeI_pc (n : Nat) : (s.writeI n).pc = s.pc := rfl
@[simp] theorem State.writeI_sp (n : Nat) : (s.writeI n).sp = s.sp := rfl
@[simp] theorem State.writeI_stack (n : Nat) : (s.writeI n).stack = s.stack := rfl
@[simp] theorem State.writeI_dt (n : Nat) : (s.writeI n).dt = s.dt := rfl
@[simp] theorem State.writeI_st (n : Nat) : (s.writeI n).st = s.st := rfl
@[simp] theorem State.writeI_fb (n : Nat) : (s.writeI n).fb = s.fb := rfl
@[simp] theorem State.writeI_mem (n : Nat) : (s.writeI n).mem = s.mem := rfl
@[simp] theorem State.writeI_status (n : Nat) : (s.writeI n).status = s.status := rfl
@[simp] theorem State.writeI_reports (n : Nat) : (s.writeI n).reports = s.reports := rfl
@[simp] theorem State.writeI_ended (n : Nat) : (s.writeI n).ended = s.ended := rfl
@[simp] theorem State.writeI_cfg (n : Nat) : (s.writeI n).cfg = s.cfg := rfl
@[simp] theorem State.writeI_schedule (n : Nat) : (s.writeI n).schedule = s.schedule := rfl
@[simp] theorem State.writeI_randoms (n : Nat) : (s.writeI n).randoms = s.randoms := rfl
@[simp] theorem State.writeI_keyPolls (n : Nat) : (s.writeI n).keyPolls = s.keyPolls := rfl
@[simp] theorem State.writeI_free (n : Nat) : (s.writeI n).free = s.free := rfl

/-! `State.putFb` -/

@[simp] theorem State.putFb_v (f : Framebuffer) : (s.putFb f).v = s.v := rfl
@[simp] theorem State.putFb_i (f : Framebuffer) : (s.putFb f).i = s.i := rfl
@[simp] theorem State.putFb_pc (f : Framebuffer) : (s.putFb f).pc = s.pc := rfl
@[simp] theorem State.putFb_sp (f : Framebuffer) : (s.putFb f).sp = s.sp := rfl
@[simp] theorem State.putFb_stack (f : Framebuffer) : (s.putFb f).stack = s.stack := rfl
@[simp] theorem State.putFb_dt (f : Framebuffer) : (s.putFb f).dt = s.dt := rfl
@[simp] theorem State.putFb_st (f : Framebuffer) : (s.putFb f).st = s.st := rfl
@[simp] theorem State.putFb_fb (f : Framebuffer) : (s.putFb f).fb = f := rfl
@[simp] theorem State.putFb_mem (f : Framebuffer) : (s.putFb f).mem = s.mem := rfl
@[simp] theorem State.putFb_status (f : Framebuffer) : (s.putFb f).status = s.status := rfl
@[simp] theorem State.putFb_reports (f : Framebuffer) : (s.putFb f).reports = s.reports := rfl
@[simp] theorem State.putFb_ended (f : Framebuffer) : (s.putFb f).ended = s.ended := rfl
@[simp] theorem State.putFb_cfg (f : Framebuffer) : (s.putFb f).cfg = s.cfg := rfl
@[simp] theorem State.putFb_schedule (f : Framebuffer) : (s.putFb f).schedule = s.schedule := rfl
@[simp] theorem State.putFb_randoms (f : Framebuffer) : (s.putFb f).randoms = s.randoms := rfl
@[simp] theorem State.putFb_keyPolls (f : Framebuffer) : (s.putFb f).keyPolls = s.keyPolls := rfl
@[simp] theorem State.putFb_free (f : Framebuffer) : (s.putFb f).free = s.free := rfl

/-! `State.report` -/

@[simp] theorem State.report_v (r : Report) : (s.report r).v = s.v := rfl
@[simp] theorem State.report_i (r : Report) : (s.report r).i = s.i := rfl
@[simp] theorem State.report_pc (r : Report) : (s.report r).pc = s.pc := rfl
@[simp] theorem State.report_sp (r : Report) : (s.report r).sp = s.sp := rfl
@[simp] theorem State.report_stack (r : Report) : (s.report r).stack = s.stack := rfl
@[simp] theorem State.report_dt (r : Report) : (s.report r).dt = s.dt := rfl
@[simp] theorem State.report_st (r : Report) : (s.report r).st = s.st := rfl
@[simp] theorem State.report_fb (r : Report) : (s.report r).fb = s.fb := rfl
@[simp] theorem State.report_mem (r : Report) : (s.report r).mem = s.mem := rfl
@[simp] theorem State.report_status (r : Report) : (s.report r).status = s.status := rfl
@[simp] theorem State.report_reports (r : Report) : (s.report r).reports = s.reports ++ [r] := rfl
@[simp] theorem State.report_ended (r : Report) : (s.report r).ended = s.ended := rfl
@[simp] theorem State.report_cfg (r : Report) : (s.report r).cfg = s.cfg := rfl
@[simp] theorem State.report_schedule (r : Report) : (s.report r).schedule = s.schedule := rfl
@[simp] theorem State.report_randoms (r : Report) : (s.report r).randoms = s.randoms := rfl
@[simp] theorem State.report_keyPolls (r : Report) : (s.report r).keyPolls = s.keyPolls := rfl
@[simp] theorem State.report_free (r : Report) : (s.report r).free = s.free := rfl

/-! `State.putPc` -/

@[simp] theorem State.putPc_v (n : Nat) : (s.putPc n).v = s.v := rfl
@[simp] theorem State.putPc_i (n : Nat) : (s.putPc n).i = s.i := rfl
@[simp] theorem State.putPc_pc (n : Nat) : (s.putPc n).pc = keepBits s.cfg.pcWidth n := rfl
@[simp] theorem State.putPc_sp (n : Nat) : (s.putPc n).sp = s.sp := rfl
@[simp] theorem State.putPc_stack (n : Nat) : (s.putPc n).stack = s.stack := rfl
@[simp] theorem State.putPc_dt (n : Nat) : (s.putPc n).dt = s.dt := rfl
@[simp] theorem State.putPc_st (n : Nat) : (s.putPc n).st = s.st := rfl
@[simp] theorem State.putPc_fb (n : Nat) : (s.putPc n).fb = s.fb := rfl
@[simp] theorem State.putPc_mem (n : Nat) : (s.putPc n).mem = s.mem := rfl
@[simp] theorem State.putPc_status (n : Nat) : (s.putPc n).status = s.status := rfl
@[simp] theorem State.putPc_reports (n : Nat) : (s.putPc n).reports = s.reports := rfl
@[simp] theorem State.putPc_ended (n : Nat) : (s.putPc n).ended = s.ended := rfl
@[simp] theorem State.putPc_cfg (n : Nat) : (s.putPc n).cfg = s.cfg := rfl
@[simp] theorem State.putPc_schedule (n : Nat) : (s.putPc n).schedule = s.schedule := rfl
@[simp] theorem State.putPc_randoms (n : Nat) : (s.putPc n).randoms = s.randoms := rfl
@[simp] theorem State.putPc_keyPolls (n : Nat) : (s.putPc n).keyPolls = s.keyPolls := rfl
@[simp] theorem State.putPc_free (n : Nat) : (s.putPc n).free = s.free := rfl

/-! `State.shutdown` -/

@[simp] theorem State.shutdown_v : (s.shutdown).v = s.v := rfl
@[simp] theorem State.shutdown_i : (s.shutdown).i = s.i := rfl
@[simp] theorem State.shutdown_pc : (s.shutdown).pc = s.pc := rfl
@[simp] theorem State.shutdown_sp : (s.shutdown).sp = s.sp := rfl
@[simp] theorem State.shutdown_stack : (s.shutdown).stack = s.stack := rfl
@[simp] theorem State.shutdown_dt : (s.shutdown).dt = s.dt := rfl
@[simp] theorem State.shutdown_st : (s.shutdown).st = s.st := rfl
@[simp] theorem State.shutdown_fb : (s.shutdown).fb = s.fb := rfl
@[simp] theorem State.shutdown_mem : (s.shutdown).mem = s.mem := rfl
@[simp] theorem State.shutdown_status : (s.shutdown).status = s.status := rfl
@[simp] theorem State.shutdown_reports : (s.shutdown).reports = s.reports := rfl
@[simp] theorem State.shutdown_ended : (s.shutdown).ended = true := rfl
@[simp] theorem State.shutdown_cfg : (s.shutdown).cfg = s.cfg := rfl
@[simp] theorem State.shutdown_schedule : (s.shutdown).schedule = s.schedule := rfl
@[simp] theorem State.shutdown_randoms : (s.shutdown).randoms = s.randoms := rfl
@[simp] theorem State.shutdown_keyPolls : (s.shutdown).keyPolls = s.keyPolls := rfl
@[simp] theorem State.shutdown_free : (s.shutdown).free = s.free := rfl

/-! `State.raiseFatal` -/

@[simp] theorem State.raiseFatal_v (f : Fatal) : (s.raiseFatal f).v = (fittedTo s.cfg (Config.afterAbort s.free)).v := rfl
@[simp] theorem State.raiseFatal_i (f : Fatal) : (s.raiseFatal f).i = (fittedTo s.cfg (Config.afterAbort s.free)).i := rfl
@[simp] theorem State.raiseFatal_pc (f : Fatal) : (s.raiseFatal f).pc = (fittedTo s.cfg (Config.afterAbort s.free)).pc := rfl
@[simp] theorem State.raiseFatal_sp (f : Fatal) : (s.raiseFatal f).sp = (fittedTo s.cfg (Config.afterAbort s.free)).sp := rfl
@[simp] theorem State.raiseFatal_stack (f : Fatal) : (s.raiseFatal f).stack = (fittedTo s.cfg (Config.afterAbort s.free)).stack := rfl
@[simp] theorem State.raiseFatal_dt (f : Fatal) : (s.raiseFatal f).dt = (fittedTo s.cfg (Config.afterAbort s.free)).dt := rfl
@[simp] theorem State.raiseFatal_st (f : Fatal) : (s.raiseFatal f).st = (fittedTo s.cfg (Config.afterAbort s.free)).st := rfl
@[simp] theorem State.raiseFatal_fb (f : Fatal) : (s.raiseFatal f).fb = (fittedTo s.cfg (Config.afterAbort s.free)).fb := rfl
@[simp] theorem State.raiseFatal_mem (f : Fatal) : (s.raiseFatal f).mem = Memory.fill s.cfg.memSize (Config.afterAbortByte s.free) := rfl
@[simp] theorem State.raiseFatal_status (f : Fatal) : (s.raiseFatal f).status = .aborted f := rfl
@[simp] theorem State.raiseFatal_reports (f : Fatal) : (s.raiseFatal f).reports = s.reports := rfl
@[simp] theorem State.raiseFatal_ended (f : Fatal) : (s.raiseFatal f).ended = s.ended := rfl
@[simp] theorem State.raiseFatal_cfg (f : Fatal) : (s.raiseFatal f).cfg = s.cfg := rfl
@[simp] theorem State.raiseFatal_schedule (f : Fatal) : (s.raiseFatal f).schedule = s.schedule := rfl
@[simp] theorem State.raiseFatal_randoms (f : Fatal) : (s.raiseFatal f).randoms = s.randoms := rfl
@[simp] theorem State.raiseFatal_keyPolls (f : Fatal) : (s.raiseFatal f).keyPolls = s.keyPolls := rfl
@[simp] theorem State.raiseFatal_free (f : Fatal) : (s.raiseFatal f).free = s.free + 1 := rfl

/-! `State.writeTimer` -/

@[simp] theorem State.writeTimer_delay_v (n : Nat) : (s.writeTimer .delay n).v = s.v := rfl
@[simp] theorem State.writeTimer_delay_i (n : Nat) : (s.writeTimer .delay n).i = s.i := rfl
@[simp] theorem State.writeTimer_delay_pc (n : Nat) : (s.writeTimer .delay n).pc = s.pc := rfl
@[simp] theorem State.writeTimer_delay_sp (n : Nat) : (s.writeTimer .delay n).sp = s.sp := rfl
@[simp] theorem State.writeTimer_delay_stack (n : Nat) : (s.writeTimer .delay n).stack = s.stack := rfl
@[simp] theorem State.writeTimer_delay_dt (n : Nat) : (s.writeTimer .delay n).dt = keepBits s.cfg.timerWidth n := rfl
@[simp] theorem State.writeTimer_delay_st (n : Nat) : (s.writeTimer .delay n).st = s.st := rfl
@[simp] theorem State.writeTimer_delay_fb (n : Nat) : (s.writeTimer .delay n).fb = s.fb := rfl
@[simp] theorem State.writeTimer_delay_mem (n : Nat) : (s.writeTimer .delay n).mem = s.mem := rfl
@[simp] theorem State.writeTimer_delay_status (n : Nat) : (s.writeTimer .delay n).status = s.status := rfl
@[simp] theorem State.writeTimer_delay_reports (n : Nat) : (s.writeTimer .delay n).reports = s.reports := rfl
@[simp] theorem State.writeTimer_delay_ended (n : Nat) : (s.writeTimer .delay n).ended = s.ended := rfl
@[simp] theorem State.writeTimer_delay_cfg (n : Nat) : (s.writeTimer .delay n).cfg = s.cfg := rfl
@[simp] theorem State.writeTimer_delay_schedule (n : Nat) : (s.writeTimer .delay n).schedule = s.schedule := rfl
@[simp] theorem State.writeTimer_delay_randoms (n : Nat) : (s.writeTimer .delay n).randoms = s.randoms := rfl
@[simp] theorem State.writeTimer_delay_keyPolls (n : Nat) : (s.writeTimer .delay n).keyPolls = s.keyPolls := rfl
@[simp] theorem State.writeTimer_delay_free (n : Nat) : (s.writeTimer .delay n).free = s.free := rfl
@[simp] theorem State.writeTimer_sound_v (n : Nat) : (s.writeTimer .sound n).v = s.v := rfl
@[simp] theorem State.writeTimer_sound_i (n : Nat) : (s.writeTimer .sound n).i = s.i := rfl
@[simp] theorem State.writeTimer_sound_pc (n : Nat) : (s.writeTimer .sound n).pc = s.pc := rfl
@[simp] theorem State.writeTimer_sound_sp (n : Nat) : (s.writeTimer .sound n).sp = s.sp := rfl
@[simp] theorem State.writeTimer_sound_stack (n : Nat) : (s.writeTimer .sound n).stack = s.stack := rfl
@[simp] theorem State.writeTimer_sound_dt (n : Nat) : (s.writeTimer .sound n).dt = s.dt := rfl
@[simp] theorem State.writeTimer_sound_st (n : Nat) : (s.writeTimer .sound n).st = keepBits s.cfg.timerWidth n := rfl
@[simp] theorem State.writeTimer_sound_fb (n : Nat) : (s.writeTimer .sound n).fb = s.fb := rfl
@[simp] theorem State.writeTimer_sound_mem (n : Nat) : (s.writeTimer .sound n).mem = s.mem := rfl
@[simp] theorem State.writeTimer_sound_status (n : Nat) : (s.writeTimer .sound n).status = s.status := rfl
@[simp] theorem State.writeTimer_sound_reports (n : Nat) : (s.writeTimer .sound n).reports = s.reports := rfl
@[simp] theorem State.writeTimer_sound_ended (n : Nat) : (s.writeTimer .sound n).ended = s.ended := rfl
@[simp] theorem State.writeTimer_sound_cfg (n : Nat) : (s.writeTimer .sound n).cfg = s.cfg := rfl
@[simp] theorem State.writeTimer_sound_schedule (n : Nat) : (s.writeTimer .sound n).schedule = s.schedule := rfl
@[simp] theorem State.writeTimer_sound_randoms (n : Nat) : (s.writeTimer .sound n).randoms = s.randoms := rfl
@[simp] theorem State.writeTimer_sound_keyPolls (n : Nat) : (s.writeTimer .sound n).keyPolls = s.keyPolls := rfl
@[simp] theorem State.writeTimer_sound_free (n : Nat) : (s.writeTimer .sound n).free = s.free := rfl

/-! Reads of updates -/

/-- A register written is read back, kept to V's width, and no other register changes. -/
theorem State.readV_writeV (x r : Nibble) (n : Nat) :
    (s.writeV x n).readV r = if r = x then keepBits s.cfg.vWidth n else s.readV r := by
  unfold State.readV State.writeV
  rw [getD_tableSet]
  simp only [BitVec.toNat_inj]

@[simp] theorem State.readV_writeV_same (x : Nibble) (n : Nat) : (s.writeV x n).readV x = keepBits s.cfg.vWidth n := by
  simp [State.readV_writeV]

theorem State.readV_writeV_other {x r : Nibble} (n : Nat) (h : r ≠ x) :
    (s.writeV x n).readV r = s.readV r := by
  simp [State.readV_writeV, h]

theorem State.readV_setFlag (r : Nibble) (c : Bool) :
    (s.setFlag c).readV r = if r = flagReg then keepBits s.cfg.vWidth (if c then 1 else 0) else s.readV r :=
  State.readV_writeV s flagReg r _

/-- A read of V sees V alone. -/
theorem State.readV_congr {s t : State} (h : t.v = s.v) (x : Nibble) : t.readV x = s.readV x := by
  simp [State.readV, h]

@[simp] theorem State.readV_putPc (n : Nat) (x : Nibble) : (s.putPc n).readV x = s.readV x := rfl
@[simp] theorem State.readV_putFb (f : Framebuffer) (x : Nibble) : (s.putFb f).readV x = s.readV x := rfl
@[simp] theorem State.readV_writeI (n : Nat) (x : Nibble) : (s.writeI n).readV x = s.readV x := rfl
@[simp] theorem State.readV_report (r : Report) (x : Nibble) : (s.report r).readV x = s.readV x := rfl
@[simp] theorem State.byteAt_writeV (x : Nibble) (n : Nat) (a : Nat) : (s.writeV x n).byteAt a = s.byteAt a := rfl
@[simp] theorem State.byteAt_setFlag (c : Bool) (a : Nat) : (s.setFlag c).byteAt a = s.byteAt a := rfl
@[simp] theorem State.byteAt_putPc (n a : Nat) : (s.putPc n).byteAt a = s.byteAt a := rfl
@[simp] theorem State.byteAt_putFb (f : Framebuffer) (a : Nat) : (s.putFb f).byteAt a = s.byteAt a := rfl
@[simp] theorem State.byteAt_writeI (n a : Nat) : (s.writeI n).byteAt a = s.byteAt a := rfl

end Sys2Proof.Machine
end

