-- ==== Sys2Proof/Laws/Ops.lean ====
section
/-! SUPPORT. One lemma for each shared operation, saying once everything it can do. -/

namespace Sys2Proof.Machine

/-! ## SetPC -/

/-- SetPC of a legal value writes pc and nothing else (R15). -/
theorem State.setPC_of_ok (s : State) {v : Nat} (h : s.cfg.pcOk v) : s.setPC v = s.putPc v := by
  rw [State.setPC, State.trySetPC, if_pos h, orAbort]

/-- SetPC of a value above `MEM_SIZE - 2` aborts (R15). -/
theorem State.setPC_of_not_ok (s : State) {v : Nat} (h : ¬s.cfg.pcOk v) :
    s.setPC v = s.raiseFatal (.pcOutOfRange v) := by
  rw [State.setPC, State.trySetPC, if_neg h, orAbort]

/-- Everything SetPC can do. -/
theorem State.setPC_cases (s : State) (v : Nat) :
    (s.cfg.pcOk v ∧ s.setPC v = s.putPc v) ∨
    (¬s.cfg.pcOk v ∧ s.setPC v = s.raiseFatal (.pcOutOfRange v)) := by
  by_cases h : s.cfg.pcOk v
  · exact .inl ⟨h, s.setPC_of_ok h⟩
  · exact .inr ⟨h, s.setPC_of_not_ok h⟩

/-- Everything a skip can do (R203 to R206). -/
theorem State.skipIf_cases (s : State) (c : Bool) :
    (c = false ∧ s.skipIf c = s) ∨
    (c = true ∧ s.cfg.pcOk (s.pc + 2) ∧ s.skipIf c = s.putPc (s.pc + 2)) ∨
    (c = true ∧ ¬s.cfg.pcOk (s.pc + 2) ∧
      s.skipIf c = s.raiseFatal (.pcOutOfRange (s.pc + 2))) := by
  cases c
  · exact .inl ⟨rfl, rfl⟩
  · rcases s.setPC_cases (s.pc + 2) with ⟨h, e⟩ | ⟨h, e⟩
    · exact .inr (.inl ⟨rfl, h, by simpa [State.skipIf] using e⟩)
    · exact .inr (.inr ⟨rfl, h, by simpa [State.skipIf] using e⟩)

/-! ## Stack -/

theorem State.push_none {s : State} (n : Nat) : s.push n = none ↔ s.cfg.stackDepth ≤ s.sp := by
  unfold State.push
  split <;> simp_all

/-- A push that succeeds writes entry SP, kept to its width, and increments SP (R202). -/
theorem State.push_some {s t : State} {n : Nat} (h : s.push n = some t) :
    s.sp < s.cfg.stackDepth ∧
      t = { s with stack := tableSet 0 s.sp (keepBits s.cfg.stackWidth n) s.stack, sp := s.sp + 1 } := by
  unfold State.push at h
  split at h
  · rename_i hk
    exact ⟨hk, by simpa using h.symm⟩
  · cases h

theorem State.pop_none {s : State} : s.pop = none ↔ s.sp = 0 := by
  unfold State.pop
  split <;> simp_all

/-- A pop that succeeds gives entry SP - 1, decrements SP and clears nothing (R200, R41). -/
theorem State.pop_some {s t : State} {n : Nat} (h : s.pop = some (n, t)) :
    s.sp ≠ 0 ∧ n = s.entry (s.sp - 1) ∧ t = { s with sp := s.sp - 1 } := by
  unfold State.pop at h
  split at h
  · cases h
  · rename_i hk
    simp only [Option.some.injEq, Prod.mk.injEq] at h
    exact ⟨hk, h.1.symm, h.2.symm⟩

/-- An entry pushed is read back, and no other entry changes. -/
theorem State.entry_push (s : State) (k j n p : Nat) :
    State.entry j { s with stack := tableSet 0 k n s.stack, sp := p } = if j = k then n else s.entry j := by
  simp only [State.entry, getD_tableSet]

/-! ## Memory -/

theorem State.memRead_of_lt (s : State) {a : Nat} (h : a < s.cfg.memSize) : s.memRead a = .ok (s.byteAt a) :=
  if_pos h

theorem State.memRead_of_ge (s : State) {a : Nat} (h : s.cfg.memSize ≤ a) :
    s.memRead a = .error (.memOutOfBounds a) :=
  if_neg (Nat.not_lt.mpr h)

theorem State.memWrite_of_lt (s : State) {a : Nat} (b : Byte) (h : a < s.cfg.memSize) :
    s.memWrite a b = .ok { s with mem := s.mem.write a b } :=
  if_pos h

theorem State.memWrite_of_ge (s : State) {a : Nat} (b : Byte) (h : s.cfg.memSize ≤ a) :
    s.memWrite a b = .error (.memOutOfBounds a) :=
  if_neg (Nat.not_lt.mpr h)

/-- A list of writes that stays in bounds writes the bytes in order and nothing else. -/
theorem State.memWriteList_ok (s : State) (a : Nat) (bs : List Byte) (h : a + bs.length ≤ s.cfg.memSize) :
    s.memWriteList a bs = .ok { s with mem := s.mem.writeBytes a bs } := by
  induction bs generalizing a s with
  | nil => rfl
  | cons b bs ih =>
    simp only [List.length_cons] at h
    rw [State.memWriteList, State.memWrite_of_lt s b (by omega)]
    exact ih _ (a + 1) (by simp only; omega)

/-- A list of writes that leaves the address space is fatal at its first address outside it (R369, R370). -/
theorem State.memWriteList_error (s : State) (a : Nat) (bs : List Byte) (h : s.cfg.memSize < a + bs.length)
    (hb : bs ≠ []) : s.memWriteList a bs = .error (.memOutOfBounds (max a s.cfg.memSize)) := by
  induction bs generalizing a s with
  | nil => exact absurd rfl hb
  | cons b bs ih =>
    simp only [List.length_cons] at h
    rw [State.memWriteList]
    rcases Nat.lt_or_ge a s.cfg.memSize with ha | ha
    · rw [State.memWrite_of_lt s b ha]
      have hne : bs ≠ [] := by
        rintro rfl
        simp only [List.length_nil] at h
        omega
      have := ih { s with mem := s.mem.write a b } (a + 1) (by simp only; omega) hne
      rw [show max (a + 1) s.cfg.memSize = max a s.cfg.memSize by omega] at this
      exact this
    · rw [State.memWrite_of_ge s b ha, Nat.max_eq_left ha]

/-- Everything a list of writes can do: it writes in order, or stops at the first address outside. -/
theorem State.memWriteList_cases (s : State) (a : Nat) (bs : List Byte) :
    (s.memWriteList a bs = .ok { s with mem := s.mem.writeBytes a bs } ∧
      (bs = [] ∨ a + bs.length ≤ s.cfg.memSize)) ∨
    s.memWriteList a bs = .error (.memOutOfBounds (max a s.cfg.memSize)) := by
  by_cases hb : bs = []
  · subst hb; exact .inl ⟨rfl, .inl rfl⟩
  · rcases Nat.lt_or_ge s.cfg.memSize (a + bs.length) with h | h
    · exact .inr (s.memWriteList_error a bs h hb)
    · exact .inl ⟨s.memWriteList_ok a bs h, .inr h⟩

/-- Loading `n` registers from `k` upward, all in bounds: register r gets byte base + r, kept to V's width, if it
is one of them, and nothing but the V registers changes (R371). -/
theorem State.loadRegsFrom_ok (s : State) (base n k : Nat) (hk : k + n ≤ 16)
    (h : n = 0 ∨ base + k + n ≤ s.cfg.memSize) :
    ∃ t, s.loadRegsFrom base n k = .ok t ∧ t = { s with v := t.v } ∧
      ∀ r : Nibble, t.readV r =
        if k ≤ r.toNat ∧ r.toNat < k + n then keepBits s.cfg.vWidth (s.byteAt (base + r.toNat)).toNat
        else s.readV r := by
  induction n generalizing s k with
  | zero =>
    refine ⟨s, rfl, rfl, fun r => ?_⟩
    have : ¬(k ≤ r.toNat ∧ r.toNat < k + 0) := by omega
    simp only [this, if_false]
  | succ n ih =>
    have hb : base + k + (n + 1) ≤ s.cfg.memSize := by omega
    obtain ⟨t, ht, hf, hr⟩ := ih (s.writeV (BitVec.ofNat 4 k) (s.byteAt (base + k)).toNat) (k + 1) (by omega)
      (by simp only [State.writeV_cfg]; omega)
    refine ⟨t, ?_, hf, fun r => ?_⟩
    · rw [State.loadRegsFrom, State.memRead_of_lt s (by omega)]
      exact ht
    · rw [hr r, State.readV_writeV]
      by_cases hrk : r.toNat = k
      · have hr' : r = BitVec.ofNat 4 k := by rw [← hrk]; simp
        have h1 : ¬(k + 1 ≤ r.toNat ∧ r.toNat < k + 1 + n) := by omega
        have h2 : k ≤ r.toNat ∧ r.toNat < k + (n + 1) := by omega
        rw [if_neg h1, if_pos hr', if_pos h2, hrk]
      · have hr' : r ≠ BitVec.ofNat 4 k := by
          intro e
          apply hrk
          rw [e, BitVec.toNat_ofNat]
          omega
        simp only [hr', if_false, State.byteAt_writeV]
        congr 1
        apply propext
        omega

/-- Loading registers that exist keeps the register file's length. -/
theorem State.loadRegsFrom_length (s : State) {t : State} (base n k : Nat) (hk : k + n ≤ 16) (h : 16 ≤ s.v.length)
    (e : s.loadRegsFrom base n k = .ok t) : t.v.length = s.v.length := by
  induction n generalizing s k with
  | zero => cases e; rfl
  | succ n ih =>
    rw [State.loadRegsFrom] at e
    split at e
    · rename_i b _
      have hl : (s.writeV (BitVec.ofNat 4 k) b.toNat).v.length = s.v.length := by
        rw [State.writeV_v, length_tableSet, BitVec.toNat_ofNat]
        omega
      rw [← hl]
      exact ih _ (k + 1) (by omega) (by omega) e
    · cases e

/-- Loading registers past the end of the address space is fatal at the first address outside it (R371). -/
theorem State.loadRegsFrom_error (s : State) (base n k : Nat) (hn : n ≠ 0) (h : s.cfg.memSize < base + k + n) :
    s.loadRegsFrom base n k = .error (.memOutOfBounds (max (base + k) s.cfg.memSize)) := by
  induction n generalizing s k with
  | zero => exact absurd rfl hn
  | succ n ih =>
    rw [State.loadRegsFrom]
    rcases Nat.lt_or_ge (base + k) s.cfg.memSize with ha | ha
    · rw [State.memRead_of_lt s ha]
      have := ih (s.writeV (BitVec.ofNat 4 k) (s.byteAt (base + k)).toNat) (k + 1) (by omega)
        (by simp only [State.writeV_cfg]; omega)
      rw [State.writeV_cfg, show max (base + (k + 1)) s.cfg.memSize = max (base + k) s.cfg.memSize by omega] at this
      exact this
    · rw [State.memRead_of_ge s ha, Nat.max_eq_left ha]

/-! ## Fetch -/

/-- Everything a fetch from a pc in bounds can do: the big-endian word and the advance, or, when the advance
would pass `MEM_SIZE - 2`, PC_OUT_OF_RANGE (R100, R101). -/
theorem State.fetch_cases (s : State) (h : s.cfg.pcOk s.pc) :
    (s.cfg.pcOk (s.pc + 2) ∧
      s.fetch = .ok (s.byteAt s.pc ++ s.byteAt (s.pc + 1), s.putPc (s.pc + 2))) ∨
    (¬s.cfg.pcOk (s.pc + 2) ∧ s.fetch = .error (.pcOutOfRange (s.pc + 2))) := by
  have hb : s.pc + 2 ≤ s.cfg.memSize := h
  unfold State.fetch
  rw [State.memRead_of_lt s (a := s.pc) (by omega), State.memRead_of_lt s (a := s.pc + 1) (by omega)]
  by_cases hp : s.cfg.pcOk (s.pc + 2)
  · exact .inl ⟨hp, by simp only [State.trySetPC, if_pos hp]⟩
  · exact .inr ⟨hp, by simp only [State.trySetPC, if_neg hp]⟩

/-- A fetch that succeeds advances pc by 2, to at most `MEM_SIZE - 2`, and changes nothing else. -/
theorem State.fetch_ok {s t : State} {w : Word} (h : s.fetch = .ok (w, t)) :
    s.cfg.pcOk (s.pc + 2) ∧ t = s.putPc (s.pc + 2) ∧
      w = s.byteAt s.pc ++ s.byteAt (s.pc + 1) := by
  have hb : s.cfg.pcOk s.pc := by
    by_contra hc
    unfold Config.pcOk at hc
    unfold State.fetch at h
    rcases Nat.lt_or_ge s.pc s.cfg.memSize with h1 | h1
    · rw [State.memRead_of_lt s h1, State.memRead_of_ge s (a := s.pc + 1) (by omega)] at h
      simp at h
    · rw [State.memRead_of_ge s h1] at h
      simp at h
  rcases s.fetch_cases hb with ⟨hp, e⟩ | ⟨_, e⟩
  · rw [e] at h
    simp only [Except.ok.injEq, Prod.mk.injEq] at h
    exact ⟨hp, h.2.symm, h.1.symm⟩
  · rw [e] at h
    cases h

/-! ## What the host supplies -/

/-- Everything the host's next operation can be: the schedule's oldest, or an open one. -/
theorem State.takeOp_cases (s : State) :
    (∃ op rest, s.schedule = op :: rest ∧ s.takeOp = (op, { s with schedule := rest })) ∨
    (s.schedule = [] ∧ s.takeOp = (Config.hostChoice s.free, { s with free := s.free + 1 })) := by
  unfold State.takeOp
  split
  · rename_i op rest e; exact .inl ⟨op, rest, e, rfl⟩
  · rename_i e; exact .inr ⟨e, rfl⟩

/-- Taking the host's next operation changes only what the host supplies. -/
theorem State.takeOp_frame (s : State) :
    s.takeOp.2 = { s with schedule := s.takeOp.2.schedule, free := s.takeOp.2.free } := by
  rcases s.takeOp_cases with ⟨op, rest, e, h⟩ | ⟨e, h⟩ <;> rw [h]

/-- Everything a draw can do: the host's next answer is used up, or the free counter advances. -/
theorem State.drawRandom_cases (s : State) :
    (∃ b rest, s.randoms = b :: rest ∧ s.drawRandom = (b, { s with randoms := rest })) ∨
    (s.randoms = [] ∧ s.drawRandom = (Config.hostRandom s.free, { s with free := s.free + 1 })) := by
  unfold State.drawRandom
  split
  · rename_i b rest e; exact .inl ⟨b, rest, e, rfl⟩
  · rename_i e; exact .inr ⟨e, rfl⟩

/-- Everything a poll can do: the host's next answer is used up, or the free counter advances. -/
theorem State.pollKeys_cases (s : State) :
    (∃ k rest, s.keyPolls = k :: rest ∧ s.pollKeys = (k, { s with keyPolls := rest })) ∨
    (s.keyPolls = [] ∧ s.pollKeys = (Config.hostKeys s.free, { s with free := s.free + 1 })) := by
  unfold State.pollKeys
  split
  · rename_i k rest e; exact .inl ⟨k, rest, e, rfl⟩
  · rename_i e; exact .inr ⟨e, rfl⟩

/-- A draw changes only what the host supplies. -/
theorem State.drawRandom_frame (s : State) :
    s.drawRandom.2 = { s with randoms := s.drawRandom.2.randoms, free := s.drawRandom.2.free } := by
  rcases s.drawRandom_cases with ⟨b, rest, e, h⟩ | ⟨e, h⟩ <;> rw [h]

/-- A poll changes only what the host supplies. -/
theorem State.pollKeys_frame (s : State) :
    s.pollKeys.2 = { s with keyPolls := s.pollKeys.2.keyPolls, free := s.pollKeys.2.free } := by
  rcases s.pollKeys_cases with ⟨b, rest, e, h⟩ | ⟨e, h⟩ <;> rw [h]

/-! ## Operand forms -/

/-- The guard of R264 refuses exactly the aliasing words of a `VF_ALIAS = Fault` session. -/
theorem State.guardAlias_cases (s : State) (aliases : Bool) (run : State) :
    (aliases = true ∧ s.cfg.vfAlias = .fault ∧ s.guardAlias aliases run = .refused .vfOperand) ∨
    ((aliases = false ∨ s.cfg.vfAlias = .sequential) ∧ s.guardAlias aliases run = .next run) := by
  unfold State.guardAlias
  cases aliases <;> cases h : s.cfg.vfAlias <;> simp

theorem State.bumpI_cases (s : State) (x : Nibble) :
    (s.cfg.quirkLoadStoreI = .unchanged ∧ s.bumpI x = s) ∨
    (s.cfg.quirkLoadStoreI = .increment ∧ s.bumpI x = s.writeI (s.i + (x.toNat + 1))) := by
  unfold State.bumpI
  cases h : s.cfg.quirkLoadStoreI <;> simp

theorem State.firstRegs_length (s : State) (x : Nibble) : (s.firstRegs x).length = x.toNat + 1 := by
  simp [State.firstRegs]

theorem bcdDigits_length (n : Nat) : (bcdDigits n).length = 3 := rfl

/-- The lowest pressed key is pressed, is a key, and no lower key is pressed (R364). -/
theorem lowestKey_some {keys : KeySet} {k : Nat} (h : lowestKey keys = some k) :
    k < 16 ∧ keys.getLsbD k = true ∧ ∀ j, j < k → keys.getLsbD j = false := by
  unfold lowestKey at h
  rw [List.find?_eq_some_iff_getElem] at h
  obtain ⟨hp, i, hi, he, hlt⟩ := h
  simp only [List.length_range] at hi
  simp only [List.getElem_range] at he hlt
  subst he
  exact ⟨hi, hp, fun j hj => by simpa using hlt j hj⟩

theorem lowestKey_none {keys : KeySet} : lowestKey keys = none ↔ keys = 0#16 := by
  unfold lowestKey
  simp only [List.find?_eq_none, List.mem_range]
  constructor
  · intro h
    apply BitVec.eq_of_getLsbD_eq
    intro k hk
    simpa using h k hk
  · rintro rfl k _
    simp

end Sys2Proof.Machine
end

