-- ==== Sys2Proof/Laws/Display.lean ====
section
/-! SUPPORT. The laws of the framebuffer: reading a toggle, a blank screen, one drawn bit, and the screen's size. -/

namespace Sys2Proof.Machine

/-- Two framebuffers of one screen whose pixels read alike are equal. -/
theorem fb_ext {cfg : Config} {f g : Framebuffer} (hf : fbShaped cfg f) (hg : fbShaped cfg g)
    (h : ∀ Y X, pixel f Y X = pixel g Y X) : f = g := by
  refine table_ext [] (hf.1.trans hg.1.symm) fun Y hY => ?_
  have hY' : Y < g.length := by rw [hg.1, ← hf.1]; exact hY
  have e1 : f.getD Y [] = f[Y] := by simp [hY]
  have e2 : g.getD Y [] = g[Y] := by simp [hY']
  refine table_ext false ?_ fun X _ => h Y X
  rw [e1, e2, hf.2 _ (List.getElem_mem hY), hg.2 _ (List.getElem_mem hY')]

/-- A toggle flips its own pixel and no other (R305). -/
theorem pixel_togglePixel (fb : Framebuffer) (y Y x X : Nat) :
    pixel (togglePixel fb y x) Y X = if Y = y ∧ X = x then !pixel fb Y X else pixel fb Y X := by
  unfold togglePixel pixel
  rw [getD_tableSet]
  by_cases hY : Y = y
  · subst hY
    rw [if_pos rfl, getD_tableSet]
    by_cases hX : X = x
    · subst hX; simp
    · simp [hX]
  · simp [hY]

/-- A toggle on the screen keeps its size. -/
theorem fbShaped_togglePixel {cfg : Config} {fb : Framebuffer} {y x : Nat} (h : fbShaped cfg fb) (hy : y < cfg.dispH)
    (hx : x < cfg.dispW) : fbShaped cfg (togglePixel fb y x) := by
  have hy' : y < fb.length := by rw [h.1]; exact hy
  have hrow : (fb.getD y []).length = cfg.dispW := by
    have e : fb.getD y [] = fb[y] := by simp [hy']
    rw [e]
    exact h.2 _ (List.getElem_mem hy')
  refine ⟨(length_tableSet_of_lt _ _ _ _ hy').trans h.1, fun row hr => ?_⟩
  rcases mem_tableSet _ _ _ _ hy' hr with rfl | hr
  · rw [length_tableSet_of_lt _ _ _ _ (by rw [hrow]; exact hx), hrow]
  · exact h.2 row hr

theorem pixel_blankFb (cfg : Config) (Y X : Nat) : pixel (blankFb cfg) Y X = false := by
  unfold pixel blankFb
  by_cases h : Y < cfg.dispH
  · have e : (List.replicate cfg.dispH (List.replicate cfg.dispW false)).getD Y [] = List.replicate cfg.dispW false := by
      simp [h]
    rw [e, getD_replicate]
  · have e : (List.replicate cfg.dispH (List.replicate cfg.dispW false)).getD Y [] = [] := by simp [h]
    rw [e]
    rfl

theorem fbShaped_blankFb (cfg : Config) : fbShaped cfg (blankFb cfg) := by
  refine ⟨by simp [blankFb], fun row hr => ?_⟩
  rw [List.eq_of_mem_replicate hr, List.length_replicate]

/-- Everything drawing one bit can do: nothing (clipped, or a 0 bit), or one toggle that may collide. -/
theorem drawBit_cases (w : Nat) (b : Byte) (x0 ry k : Nat) (c : Canvas) :
    (¬(x0 + k < w ∧ b.getLsbD (7 - k) = true) ∧ drawBit w b x0 ry k c = c) ∨
    (x0 + k < w ∧ b.getLsbD (7 - k) = true ∧
      drawBit w b x0 ry k c =
        { fb := togglePixel c.fb ry (x0 + k), hit := c.hit || pixel c.fb ry (x0 + k) }) := by
  unfold drawBit
  split
  · rename_i h
    split
    · rename_i hb; exact .inr ⟨h, hb, rfl⟩
    · rename_i hb; exact .inl ⟨fun e => hb e.2, rfl⟩
  · rename_i h; exact .inl ⟨fun e => h e.1, rfl⟩

/-- Drawing on the screen keeps its size. -/
theorem fbShaped_drawBits {cfg : Config} {b : Byte} {x0 ry : Nat} (hy : ry < cfg.dispH) (n k : Nat) (c : Canvas)
    (h : fbShaped cfg c.fb) : fbShaped cfg (drawBits cfg.dispW b x0 ry n k c).fb := by
  induction n generalizing k c with
  | zero => exact h
  | succ n ih =>
    refine ih (k + 1) _ ?_
    rcases drawBit_cases cfg.dispW b x0 ry k c with ⟨_, e⟩ | ⟨hx, _, e⟩ <;> rw [e]
    · exact h
    · exact fbShaped_togglePixel h hy hx

theorem fbShaped_drawRows {s : State} {x0 y0 : Nat} (n r : Nat) (c d : Canvas) (h : fbShaped s.cfg c.fb)
    (e : s.drawRows x0 y0 n r c = .ok d) : fbShaped s.cfg d.fb := by
  induction n generalizing r c with
  | zero => cases e; exact h
  | succ n ih =>
    unfold State.drawRows at e
    split at e
    · rename_i hy
      split at e
      · exact ih (r + 1) _ (fbShaped_drawBits hy 8 0 c h) e
      · cases e
    · cases e; exact h

end Sys2Proof.Machine
end

