-- ==== Sys2Proof/Laws/Encoding.lean ====
section
/-! SUPPORT. The laws of the word layouts: each field of a word built from its fields, a word from its nibbles, and a word from its bytes. -/

namespace Sys2Proof

theorem toNat_append_eq {n m : Nat} (a : BitVec n) (b : BitVec m) : (a ++ b).toNat = a.toNat * 2 ^ m + b.toNat := by
  rw [BitVec.toNat_append, ← Nat.shiftLeft_add_eq_or_of_lt b.isLt, Nat.shiftLeft_eq]

theorem encFXYN_toNat (f x y n : Nibble) :
    (encFXYN f x y n).toNat = f.toNat * 4096 + x.toNat * 256 + y.toNat * 16 + n.toNat := by
  simp only [encFXYN, toNat_append_eq]
  omega

theorem encFXNN_toNat (f x : Nibble) (nn : Byte) :
    (encFXNN f x nn).toNat = f.toNat * 4096 + x.toNat * 256 + nn.toNat := by
  simp only [encFXNN, toNat_append_eq]
  omega

theorem encFNNN_toNat (f : Nibble) (nnn : Addr) : (encFNNN f nnn).toNat = f.toNat * 4096 + nnn.toNat := by
  simp only [encFNNN, toNat_append_eq]
  omega

/-! ## Fields as numbers (R18) -/

theorem fieldF_toNat (w : Word) : (fieldF w).toNat = w.toNat / 4096 := by
  have := w.isLt
  simp only [fieldF, BitVec.extractLsb'_toNat, Nat.shiftRight_eq_div_pow]
  omega
theorem fieldX_toNat (w : Word) : (fieldX w).toNat = w.toNat / 256 % 16 := by
  simp only [fieldX, BitVec.extractLsb'_toNat, Nat.shiftRight_eq_div_pow]
theorem fieldY_toNat (w : Word) : (fieldY w).toNat = w.toNat / 16 % 16 := by
  simp only [fieldY, BitVec.extractLsb'_toNat, Nat.shiftRight_eq_div_pow]
theorem fieldN_toNat (w : Word) : (fieldN w).toNat = w.toNat % 16 := by
  simp only [fieldN, BitVec.extractLsb'_toNat, Nat.shiftRight_eq_div_pow, Nat.pow_zero, Nat.div_one]
theorem fieldNN_toNat (w : Word) : (fieldNN w).toNat = w.toNat % 256 := by
  simp only [fieldNN, BitVec.extractLsb'_toNat, Nat.shiftRight_eq_div_pow, Nat.pow_zero, Nat.div_one]
theorem fieldNNN_toNat (w : Word) : (fieldNNN w).toNat = w.toNat % 4096 := by
  simp only [fieldNNN, BitVec.extractLsb'_toNat, Nat.shiftRight_eq_div_pow, Nat.pow_zero, Nat.div_one]

/-! ## Each field of each layout (R102) -/

theorem fieldF_encFXYN (f x y n : Nibble) : fieldF (encFXYN f x y n) = f := by
  apply BitVec.eq_of_toNat_eq; rw [fieldF_toNat, encFXYN_toNat]; omega
theorem fieldX_encFXYN (f x y n : Nibble) : fieldX (encFXYN f x y n) = x := by
  apply BitVec.eq_of_toNat_eq; rw [fieldX_toNat, encFXYN_toNat]; omega
theorem fieldY_encFXYN (f x y n : Nibble) : fieldY (encFXYN f x y n) = y := by
  apply BitVec.eq_of_toNat_eq; rw [fieldY_toNat, encFXYN_toNat]; omega
theorem fieldN_encFXYN (f x y n : Nibble) : fieldN (encFXYN f x y n) = n := by
  apply BitVec.eq_of_toNat_eq; rw [fieldN_toNat, encFXYN_toNat]; omega
theorem fieldF_encFXNN (f x : Nibble) (nn : Byte) : fieldF (encFXNN f x nn) = f := by
  apply BitVec.eq_of_toNat_eq; rw [fieldF_toNat, encFXNN_toNat]; omega
theorem fieldX_encFXNN (f x : Nibble) (nn : Byte) : fieldX (encFXNN f x nn) = x := by
  apply BitVec.eq_of_toNat_eq; rw [fieldX_toNat, encFXNN_toNat]; omega
theorem fieldNN_encFXNN (f x : Nibble) (nn : Byte) : fieldNN (encFXNN f x nn) = nn := by
  apply BitVec.eq_of_toNat_eq; rw [fieldNN_toNat, encFXNN_toNat]; omega
theorem fieldF_encFNNN (f : Nibble) (nnn : Addr) : fieldF (encFNNN f nnn) = f := by
  apply BitVec.eq_of_toNat_eq; rw [fieldF_toNat, encFNNN_toNat]; omega
theorem fieldNNN_encFNNN (f : Nibble) (nnn : Addr) : fieldNNN (encFNNN f nnn) = nnn := by
  apply BitVec.eq_of_toNat_eq; rw [fieldNNN_toNat, encFNNN_toNat]; omega

/-- A word is its four nibbles (R102). -/
theorem encFXYN_fields (w : Word) : encFXYN (fieldF w) (fieldX w) (fieldY w) (fieldN w) = w := by
  apply BitVec.eq_of_toNat_eq
  rw [encFXYN_toNat, fieldF_toNat, fieldX_toNat, fieldY_toNat, fieldN_toNat]
  omega

/-- A word is its two bytes, high byte first (R73). -/
theorem wordOfBytes_bytes (w : Word) : wordOfBytes (highByte w) (lowByte w) = w := by
  have := w.isLt
  apply BitVec.eq_of_toNat_eq
  simp only [wordOfBytes, highByte, lowByte, toNat_append_eq, BitVec.extractLsb'_toNat, Nat.shiftRight_eq_div_pow]
  omega

/-! ## Masks of a nibble view (R107, R360) -/

/-- Bit `k` of a word built from nibbles is a bit of one of them. -/
theorem getLsbD_encFXYN (f x y n : Nibble) {k : Nat} (hk : k < 16) :
    (encFXYN f x y n).getLsbD k =
      if k < 4 then n.getLsbD k else if k < 8 then y.getLsbD (k - 4)
      else if k < 12 then x.getLsbD (k - 8) else f.getLsbD (k - 12) := by
  unfold encFXYN
  have h8 : k - 4 < 4 ↔ k < 8 := by omega
  have h12 : k - (4 + 4) < 4 ↔ k < 12 := by omega
  simp only [BitVec.getLsbD_append, Nat.sub_sub, h8, h12]

theorem and_fifteen : ∀ a : Nibble, a &&& 0xF#4 = a := by decide

/-- The mask of a nibble view is the nibble view of the masks. -/
theorem encFXYN_and (f x y n f' x' y' n' : Nibble) :
    encFXYN f x y n &&& encFXYN f' x' y' n' = encFXYN (f &&& f') (x &&& x') (y &&& y') (n &&& n') := by
  apply BitVec.eq_of_getLsbD_eq
  intro k hk
  simp only [BitVec.getLsbD_and, getLsbD_encFXYN _ _ _ _ hk]
  split_ifs <;> rfl

theorem fieldNN_encFXYN (f x y n : Nibble) : fieldNN (encFXYN f x y n) = y ++ n := by
  apply BitVec.eq_of_toNat_eq; rw [fieldNN_toNat, encFXYN_toNat, toNat_append_eq]; omega

/-- The mask that isAluHole looks at keeps F and N. -/
theorem and_F00F (f x y n : Nibble) : encFXYN f x y n &&& 0xF00F#16 = encFXYN f 0 0 n := by
  rw [show (0xF00F#16 : Word) = encFXYN 0xF 0 0 0xF by decide, encFXYN_and]
  simp [and_fifteen]

/-- The mask that isExtWord looks at keeps F and NN. -/
theorem and_F0FF (f x y n : Nibble) : encFXYN f x y n &&& 0xF0FF#16 = encFXYN f 0 y n := by
  rw [show (0xF0FF#16 : Word) = encFXYN 0xF 0 0xF 0xF by decide, encFXYN_and]
  simp [and_fifteen]

/-- The mask that isUnimplWord looks at keeps the upper three bits of F. -/
theorem and_E000 (f x y n : Nibble) : encFXYN f x y n &&& 0xE000#16 = encFXYN (f &&& 0xE#4) 0 0 0 := by
  rw [show (0xE000#16 : Word) = encFXYN 0xE 0 0 0 by decide, encFXYN_and]
  simp

end Sys2Proof
end

