-- ==== Sys2Proof/Laws/Widths.lean ====
section
/-! SUPPORT. Every write keeps the registers, the stack entries and the timers to their widths, and what is so kept is read as it is (R9; log 1). -/

namespace Sys2Proof.Machine

variable {s : State}

/-! ## Reads -/

theorem State.InWidths.readV_lt (h : s.InWidths) (x : Nibble) : s.readV x < 2 ^ s.cfg.vWidth :=
  forall_getD 0 _ _ (Nat.two_pow_pos _) h.v

theorem State.InWidths.entry_lt (h : s.InWidths) (k : Nat) : s.entry k < 2 ^ s.cfg.stackWidth :=
  forall_getD 0 _ _ (Nat.two_pow_pos _) h.stack

theorem State.InWidths.timer_lt (h : s.InWidths) (t : Timer) : s.timer t < 2 ^ s.cfg.timerWidth := by
  cases t
  · exact h.dt
  · exact h.st

/-- SetPC of a value that pc may hold, where the parameters make sense: pc holds that value. -/
theorem State.putPc_of_ok {v : Nat} (hw : s.cfg.Wf) (hv : s.cfg.pcOk v) : s.putPc v = { s with pc := v } := by
  rw [State.putPc, keepBits_of_lt (hw.pcOk_lt hv)]

/-! ## Writes -/

theorem State.InWidths.writeV (h : s.InWidths) (x : Nibble) (n : Nat) : (s.writeV x n).InWidths :=
  { h with v := forall_mem_tableSet 0 _ _ _ (Nat.two_pow_pos _) (keepBits_lt _ n) h.v }

theorem State.InWidths.setFlag (h : s.InWidths) (c : Bool) : (s.setFlag c).InWidths := h.writeV _ _

theorem State.InWidths.writeI (h : s.InWidths) (n : Nat) : (s.writeI n).InWidths :=
  { h with i := keepBits_lt _ n }

theorem State.InWidths.writeTimer (h : s.InWidths) (t : Timer) (n : Nat) : (s.writeTimer t n).InWidths := by
  cases t
  · exact { h with dt := keepBits_lt _ n }
  · exact { h with st := keepBits_lt _ n }

theorem State.InWidths.putPc (h : s.InWidths) (n : Nat) : (s.putPc n).InWidths :=
  { h with pc := keepBits_lt _ n }

theorem State.InWidths.bumpI (h : s.InWidths) (x : Nibble) : (s.bumpI x).InWidths := by
  rcases s.bumpI_cases x with ⟨_, e⟩ | ⟨_, e⟩ <;> rw [e]
  · exact h
  · exact h.writeI _

theorem State.InWidths.push {t : State} {n : Nat} (h : s.InWidths) (e : s.push n = some t) : t.InWidths := by
  obtain ⟨_, rfl⟩ := State.push_some e
  exact { h with stack := forall_mem_tableSet 0 _ _ _ (Nat.two_pow_pos _) (keepBits_lt _ n) h.stack }

theorem State.InWidths.loadRegsFrom {t : State} {base n k : Nat} (h : s.InWidths)
    (e : s.loadRegsFrom base n k = .ok t) : t.InWidths := by
  induction n generalizing s k with
  | zero => cases e; exact h
  | succ n ih =>
    rw [State.loadRegsFrom] at e
    split at e
    · exact ih (h.writeV _ _) e
    · cases e

/-- Open contents cut to the session are in its widths. -/
theorem inWidths_fittedTo (cfg : Config) (r : Config.Residue) :
    (∀ n ∈ (fittedTo cfg r).v, n < 2 ^ cfg.vWidth) ∧ (fittedTo cfg r).i < 2 ^ cfg.iWidth ∧
    (fittedTo cfg r).pc < 2 ^ cfg.pcWidth ∧ (∀ n ∈ (fittedTo cfg r).stack, n < 2 ^ cfg.stackWidth) ∧
    (fittedTo cfg r).dt < 2 ^ cfg.timerWidth ∧ (fittedTo cfg r).st < 2 ^ cfg.timerWidth := by
  refine ⟨?_, keepBits_lt _ _, keepBits_lt _ _, ?_, keepBits_lt _ _, keepBits_lt _ _⟩
  · simp only [fittedTo, List.forall_mem_map]
    exact fun _ _ => keepBits_lt _ _
  · simp only [fittedTo, List.forall_mem_map]
    exact fun _ _ => keepBits_lt _ _

/-- An abort leaves contents of the session's widths. -/
theorem State.inWidths_raiseFatal (s : State) (f : Fatal) : (s.raiseFatal f).InWidths :=
  have h := inWidths_fittedTo s.cfg (Config.afterAbort s.free)
  ⟨h.1, h.2.1, h.2.2.1, h.2.2.2.1, h.2.2.2.2.1, h.2.2.2.2.2⟩

end Sys2Proof.Machine
end

