-- ==== Sys2Proof/Laws/Exec.lean ====
section
/-! SUPPORT. What one instruction, one cycle and one step can do, said once, for the proofs to cite. -/

namespace Sys2Proof.Machine

/-- Everything an instruction that does not abort can do to each field. -/
structure Effect (i : Instr) (s t : State) : Prop where
  status : t.status = s.status
  ended : t.ended = s.ended
  cfg : t.cfg = s.cfg
  schedule : t.schedule = s.schedule
  v : ∀ r, Instr.mayWriteV i r = false → t.readV r = s.readV r
  pcSame : Instr.mayWritePc i = false → t.pc = s.pc
  pcOk : t.pc = s.pc ∨ ∃ v, s.cfg.pcOk v ∧ t.pc = keepBits s.cfg.pcWidth v
  widths : s.InWidths → t.InWidths
  vLength : 16 ≤ s.v.length → t.v.length = s.v.length
  fbShape : fbShaped s.cfg s.fb → fbShaped s.cfg t.fb
  fb : t.fb = s.fb ∨ i = .cls ∨ ∃ x y n, i = .drw x y n
  stackWriter : (t.stack = s.stack ∧ t.sp = s.sp) ∨ i = .ret ∨ ∃ nnn, i = .call nnn
  stack : (t.stack = s.stack ∧ t.sp ≤ s.sp) ∨
    (s.sp < s.cfg.stackDepth ∧ t.stack = tableSet 0 s.sp (keepBits s.cfg.stackWidth s.pc) s.stack ∧ t.sp = s.sp + 1)
  index : t.i = s.i ∨ (∃ nnn, i = .ldI nnn) ∨
    ∃ x, i = .addI x ∨ i = .ldF x ∨ i = .storeRegs x ∨ i = .loadRegs x
  dt : t.dt = s.dt ∨ ∃ x, i = .ldDTVx x
  st : t.st = s.st ∨ ∃ x, i = .ldSTVx x
  mem : t.mem = s.mem ∨ ((∃ x, i = .ldB x ∨ i = .storeRegs x) ∧
    ∃ bs, s.i + bs.length ≤ s.cfg.memSize ∧ t.mem = s.mem.writeBytes s.i bs)
  reports : t.reports = s.reports ∨ ∃ r, t.reports = s.reports ++ [r]
  keys : t.keyPolls = s.keyPolls ∨ ∃ x, i = .skp x ∨ i = .sknp x ∨ i = .ldVxK x

/-- `t` is an abort raised in a state that has kept what an abort keeps of `s`. -/
def AbortOf (s t : State) : Prop :=
  ∃ (f : Fatal) (u : State), t = u.raiseFatal f ∧ u.status = s.status ∧ u.cfg = s.cfg ∧
    u.reports = s.reports ∧ u.schedule = s.schedule ∧ u.ended = s.ended

theorem AbortOf.self (s : State) (f : Fatal) : AbortOf s (s.raiseFatal f) := ⟨f, s, rfl, rfl, rfl, rfl, rfl, rfl⟩

theorem AbortOf.not_running {s t : State} (h : AbortOf s t) : t.status ≠ .running := by
  obtain ⟨f, u, rfl, _⟩ := h
  intro e
  cases e

/-! ## How the shared operations keep an effect -/

theorem Effect.refl (i : Instr) (s : State) : Effect i s s :=
  ⟨rfl, rfl, rfl, rfl, fun _ _ => rfl, fun _ => rfl, .inl rfl, id, fun _ => rfl, id, .inl rfl, .inl ⟨rfl, rfl⟩,
    .inl ⟨rfl, Nat.le_refl _⟩,
    .inl rfl, .inl rfl, .inl rfl, .inl rfl, .inl rfl, .inl rfl⟩

theorem Effect.setPC {i : Instr} {s u : State} (v : Nat) (h : Effect i s u) (hp : Instr.mayWritePc i = true)
    (hr : u.reports = s.reports) : Effect i s (u.setPC v) ∨ AbortOf s (u.setPC v) := by
  rcases u.setPC_cases v with ⟨hv, e⟩ | ⟨_, e⟩ <;> rw [e]
  · exact .inl { h with
      pcSame := by simp [hp]
      pcOk := .inr ⟨v, by rwa [← h.cfg], by rw [← h.cfg]; rfl⟩
      widths := fun hw => (h.widths hw).putPc v }
  · exact .inr ⟨_, u, rfl, h.status, h.cfg, hr, h.schedule, h.ended⟩

theorem Effect.skipIf {i : Instr} {s u : State} (c : Bool) (h : Effect i s u) (hp : Instr.mayWritePc i = true)
    (hr : u.reports = s.reports) : Effect i s (u.skipIf c) ∨ AbortOf s (u.skipIf c) := by
  cases c
  · exact .inl h
  · exact h.setPC _ hp hr

theorem Effect.writeV {i : Instr} {s u : State} (x : Nibble) (n : Nat) (h : Effect i s u)
    (hx : Instr.mayWriteV i x = true) : Effect i s (u.writeV x n) :=
  have hv : ∀ r, Instr.mayWriteV i r = false → (u.writeV x n).readV r = s.readV r := by
    intro r hr
    have hne : r ≠ x := fun e => by subst e; simp [hx] at hr
    exact (State.readV_writeV_other u n hne).trans (h.v r hr)
  have hl : 16 ≤ s.v.length → (u.writeV x n).v.length = s.v.length := by
    intro h16
    have := h.vLength h16
    have := x.isLt
    rw [State.writeV_v, length_tableSet]
    omega
  { h with v := hv, vLength := hl, widths := fun hw => (h.widths hw).writeV x n }

theorem Effect.setFlag {i : Instr} {s u : State} (c : Bool) (h : Effect i s u)
    (hx : Instr.mayWriteV i flagReg = true) : Effect i s (u.setFlag c) :=
  h.writeV flagReg _ hx

theorem Effect.poll {i : Instr} {s : State} (h : ∃ x, i = .skp x ∨ i = .sknp x ∨ i = .ldVxK x) :
    Effect i s s.pollKeys.2 := by
  rw [s.pollKeys_frame]
  exact { Effect.refl i s with keys := .inr h, widths := fun hw => { hw with } }

theorem pollKeys_reports (s : State) : s.pollKeys.2.reports = s.reports := by rw [s.pollKeys_frame]

/-- A guarded instruction that answers a next state has run. -/
theorem guardAlias_next {s run t : State} {a : Bool} (h : s.guardAlias a run = .next t) : t = run := by
  rcases s.guardAlias_cases a run with ⟨_, _, e⟩ | ⟨_, e⟩ <;> rw [e] at h <;> cases h
  rfl

/-! ## The instructions with a case of their own -/

theorem execRet_effect (s : State) : ∃ t, execRet s = .next t ∧ (Effect .ret s t ∨ AbortOf s t) := by
  unfold execRet
  split
  · exact ⟨_, rfl, .inr (AbortOf.self s _)⟩
  · rename_i n t h
    obtain ⟨h0, rfl, rfl⟩ := State.pop_some h
    exact ⟨_, rfl, Effect.setPC _ { Effect.refl _ s with
        stackWriter := .inr (.inl rfl), stack := .inl ⟨rfl, by simp⟩, widths := fun hw => { hw with } } rfl rfl⟩

theorem execCall_effect (nnn : Addr) (s : State) :
    ∃ t, execCall nnn s = .next t ∧ (Effect (.call nnn) s t ∨ AbortOf s t) := by
  unfold execCall
  split
  · exact ⟨_, rfl, .inl { Effect.refl _ s with reports := .inr ⟨_, rfl⟩, widths := fun hw => { hw with } }⟩
  · rename_i t h
    have hw := fun (hw : s.InWidths) => hw.push h
    obtain ⟨hk, rfl⟩ := State.push_some h
    exact ⟨_, rfl, Effect.setPC _
      { Effect.refl _ s with
        stackWriter := .inr (.inr ⟨_, rfl⟩), stack := .inr ⟨hk, rfl, rfl⟩, widths := hw } rfl rfl⟩

theorem drawSprite_effect (x y n : Nibble) (s : State) :
    Effect (.drw x y n) s (orAbort s (s.drawSprite x y n)) ∨ AbortOf s (orAbort s (s.drawSprite x y n)) := by
  unfold State.drawSprite
  split
  · rename_i c e
    refine .inl (Effect.setFlag _ ?_ (by simp [Instr.mayWriteV]))
    exact { Effect.refl _ s with
      fb := .inr (.inr ⟨_, _, _, rfl⟩), fbShape := fun h => fbShaped_drawRows _ _ _ _ h e
      widths := fun hw => { hw with } }
  · exact .inr (AbortOf.self s _)

theorem execLdVxK_effect (x : Nibble) (s : State) :
    ∃ t, execLdVxK x s = .next t ∧ (Effect (.ldVxK x) s t ∨ AbortOf s t) := by
  have hp : Effect (.ldVxK x) s s.pollKeys.2 := Effect.poll ⟨x, .inr (.inr rfl)⟩
  refine ⟨_, rfl, ?_⟩
  split
  · exact .inl (hp.writeV _ _ (by simp [Instr.mayWriteV]))
  · exact hp.setPC _ rfl (pollKeys_reports s)

theorem execLdB_effect (x : Nibble) (s : State) :
    ∃ t, execLdB x s = .next t ∧ (Effect (.ldB x) s t ∨ AbortOf s t) := by
  refine ⟨_, rfl, ?_⟩
  rcases s.memWriteList_cases s.i (bcdDigits (s.readV x)) with ⟨e, h⟩ | e <;> rw [e]
  · exact .inl { Effect.refl _ s with
      mem := .inr ⟨⟨x, .inl rfl⟩, _, h.resolve_left (by simp [bcdDigits]), rfl⟩, widths := fun hw => { hw with } }
  · exact .inr (AbortOf.self s _)

theorem execStoreRegs_effect (x : Nibble) (s : State) :
    ∃ t, execStoreRegs x s = .next t ∧ (Effect (.storeRegs x) s t ∨ AbortOf s t) := by
  refine ⟨_, rfl, ?_⟩
  rcases s.memWriteList_cases s.i (s.firstRegs x) with ⟨e, h⟩ | e <;> rw [e]
  · have hb : s.i + (s.firstRegs x).length ≤ s.cfg.memSize := by
      refine h.resolve_left fun h0 => ?_
      have := s.firstRegs_length x
      simp [h0] at this
    left
    show Effect _ s (State.bumpI x _)
    have hm : s.InWidths → State.InWidths { s with mem := s.mem.writeBytes s.i (s.firstRegs x) } :=
      fun hw => { hw with }
    have hw := fun h => (hm h).bumpI x
    rcases State.bumpI_cases { s with mem := s.mem.writeBytes s.i (s.firstRegs x) } x with ⟨_, e'⟩ | ⟨_, e'⟩ <;>
      rw [e'] at hw ⊢
    · exact { Effect.refl _ s with mem := .inr ⟨⟨x, .inr rfl⟩, _, hb, rfl⟩, widths := hw }
    · exact { Effect.refl _ s with
        mem := .inr ⟨⟨x, .inr rfl⟩, _, hb, rfl⟩, widths := hw, index := .inr (.inr ⟨x, .inr (.inr (.inl rfl))⟩) }
  · exact .inr (AbortOf.self s _)

theorem execLoadRegs_effect (x : Nibble) (s : State) :
    ∃ t, execLoadRegs x s = .next t ∧ (Effect (.loadRegs x) s t ∨ AbortOf s t) := by
  refine ⟨_, rfl, ?_⟩
  have hx := x.isLt
  rcases Nat.lt_or_ge s.cfg.memSize (s.i + 0 + (x.toNat + 1)) with h | h
  · rw [s.loadRegsFrom_error _ _ _ (by omega) h]
    exact .inr (AbortOf.self s _)
  · obtain ⟨t, e, hf, hr⟩ := s.loadRegsFrom_ok s.i (x.toNat + 1) 0 (by omega) (.inr h)
    have hl : 16 ≤ s.v.length → t.v.length = s.v.length :=
      fun h16 => s.loadRegsFrom_length _ _ _ (by omega) h16 e
    have hw : s.InWidths → (t.bumpI x).InWidths := fun hw => (hw.loadRegsFrom e).bumpI x
    rw [e]
    left
    show Effect _ s (State.bumpI x t)
    have hv : ∀ r, Instr.mayWriteV (.loadRegs x) r = false → t.readV r = s.readV r := by
      intro r hw
      rw [hr r, if_neg]
      simp only [Instr.mayWriteV, decide_eq_false_iff_not] at hw
      omega
    generalize t.v = vs at hf
    subst hf
    rcases State.bumpI_cases { s with v := vs } x with ⟨_, e'⟩ | ⟨_, e'⟩ <;> rw [e'] at hw ⊢
    · exact { Effect.refl _ s with v := hv, vLength := hl, widths := hw }
    · exact { Effect.refl _ s with
        v := hv, vLength := hl, widths := hw, index := .inr (.inr ⟨x, .inr (.inr (.inr rfl))⟩) }

/-! ## exec -/

/-- Everything a next state of exec can be: the instruction's effect, or an abort. -/
theorem exec_next {i : Instr} {s t : State} (h : exec i s = .next t) : Effect i s t ∨ AbortOf s t := by
  have of : ∀ {o : Host.Outcome State Fault Refusal}, (∃ u, o = .next u ∧ (Effect i s u ∨ AbortOf s u)) →
      o = .next t → Effect i s t ∨ AbortOf s t := by
    rintro o ⟨u, rfl, hu⟩ e
    cases e
    exact hu
  cases i with
  | cls =>
    cases h
    exact .inl { Effect.refl _ s with
      fb := .inr (.inl rfl), fbShape := fun _ => fbShaped_blankFb _, widths := fun hw => { hw with } }
  | ret => exact of (execRet_effect s) h
  | jp nnn => cases h; exact (Effect.refl _ s).setPC _ rfl rfl
  | call nnn => exact of (execCall_effect nnn s) h
  | seByte x nn => cases h; exact (Effect.refl _ s).skipIf _ rfl rfl
  | sneByte x nn => cases h; exact (Effect.refl _ s).skipIf _ rfl rfl
  | seReg x y => cases h; exact (Effect.refl _ s).skipIf _ rfl rfl
  | sneReg x y => cases h; exact (Effect.refl _ s).skipIf _ rfl rfl
  | ldByte x nn => cases h; exact .inl ((Effect.refl _ s).writeV _ _ (by simp [Instr.mayWriteV]))
  | addByte x nn => cases h; exact .inl ((Effect.refl _ s).writeV _ _ (by simp [Instr.mayWriteV]))
  | ldReg x y => cases h; exact .inl ((Effect.refl _ s).writeV _ _ (by simp [Instr.mayWriteV]))
  | orReg x y => cases h; exact .inl ((Effect.refl _ s).writeV _ _ (by simp [Instr.mayWriteV]))
  | andReg x y => cases h; exact .inl ((Effect.refl _ s).writeV _ _ (by simp [Instr.mayWriteV]))
  | xorReg x y => cases h; exact .inl ((Effect.refl _ s).writeV _ _ (by simp [Instr.mayWriteV]))
  | ldVxDT x => cases h; exact .inl ((Effect.refl _ s).writeV _ _ (by simp [Instr.mayWriteV]))
  | addReg x y =>
    rw [guardAlias_next h]
    exact .inl (((Effect.refl _ s).setFlag _ (by simp [Instr.mayWriteV])).writeV _ _ (by simp [Instr.mayWriteV]))
  | subReg x y =>
    rw [guardAlias_next h]
    exact .inl (((Effect.refl _ s).setFlag _ (by simp [Instr.mayWriteV])).writeV _ _ (by simp [Instr.mayWriteV]))
  | subn x y =>
    rw [guardAlias_next h]
    exact .inl (((Effect.refl _ s).setFlag _ (by simp [Instr.mayWriteV])).writeV _ _ (by simp [Instr.mayWriteV]))
  | shr x y =>
    rw [guardAlias_next h]
    unfold State.shrReg
    split <;>
      exact .inl (((Effect.refl _ s).setFlag _ (by simp [Instr.mayWriteV])).writeV _ _ (by simp [Instr.mayWriteV]))
  | shl x y =>
    rw [guardAlias_next h]
    unfold State.shlReg
    split <;>
      exact .inl (((Effect.refl _ s).setFlag _ (by simp [Instr.mayWriteV])).writeV _ _ (by simp [Instr.mayWriteV]))
  | unimpl w => cases h; exact .inl { Effect.refl _ s with reports := .inr ⟨_, rfl⟩, widths := fun hw => { hw with } }
  | ldI nnn => cases h; exact .inl { Effect.refl _ s with index := .inr (.inl ⟨_, rfl⟩), widths := fun hw => hw.writeI _ }
  | jpV0 nnn => cases h; exact (Effect.refl _ s).setPC _ rfl rfl
  | rnd x nn =>
    cases h
    rw [s.drawRandom_frame]
    exact .inl (Effect.writeV x _ { Effect.refl _ s with widths := fun hw => { hw with } } (by simp [Instr.mayWriteV]))
  | drw x y n =>
    rw [guardAlias_next h]
    exact drawSprite_effect x y n s
  | skp x =>
    simp only [exec, execSkp] at h
    split at h <;> cases h
    exact (Effect.poll ⟨x, .inl rfl⟩).skipIf _ rfl (pollKeys_reports s)
  | sknp x =>
    simp only [exec, execSknp] at h
    split at h <;> cases h
    exact (Effect.poll ⟨x, .inr (.inl rfl)⟩).skipIf _ rfl (pollKeys_reports s)
  | ldVxK x => exact of (execLdVxK_effect x s) h
  | ldDTVx x => cases h; exact .inl { Effect.refl _ s with dt := .inr ⟨_, rfl⟩, widths := fun hw => hw.writeTimer .delay _ }
  | ldSTVx x => cases h; exact .inl { Effect.refl _ s with st := .inr ⟨_, rfl⟩, widths := fun hw => hw.writeTimer .sound _ }
  | addI x =>
    cases h
    exact .inl { Effect.refl _ s with index := .inr (.inr ⟨x, .inl rfl⟩), widths := fun hw => hw.writeI _ }
  | ldF x =>
    cases h
    exact .inl { Effect.refl _ s with index := .inr (.inr ⟨x, .inr (.inl rfl)⟩), widths := fun hw => hw.writeI _ }
  | ldB x => exact of (execLdB_effect x s) h
  | storeRegs x => exact of (execStoreRegs_effect x s) h
  | loadRegs x => exact of (execLoadRegs_effect x s) h

/-! ## Cycle and step -/

/-- Everything a cycle that answers a next state can be: a fetch that aborts, or the decoded instruction run
with pc past its word (R100, R101). -/
theorem cycle_next {s t : State} (h : s.cycle = .next t) :
    (∃ f, s.fetch = .error f ∧ t = s.raiseFatal f) ∨
    (s.cfg.pcOk (s.pc + 2) ∧
      exec (decode s.cfg.extEF (s.byteAt s.pc ++ s.byteAt (s.pc + 1))) (s.putPc (s.pc + 2)) =
        .next t) := by
  unfold State.cycle at h
  split at h
  · rename_i f e
    cases h
    exact .inl ⟨f, e, rfl⟩
  · rename_i w u e
    obtain ⟨hp, rfl, rfl⟩ := State.fetch_ok e
    exact .inr ⟨hp, h⟩

/-- Everything a step that answers a next state can be: a cycle, a tick or the shutdown of a live session, once
the host's operation is taken. -/
theorem step_next {s t : State} (h : step s = .next t) :
    s.live ∧ (s.takeOp.2.cycle = .next t ∨ (∃ k, t = s.takeOp.2.tick k) ∨ t = s.takeOp.2.shutdown) := by
  unfold step State.guardedOp at h
  split at h
  · cases h
  · rename_i hr
    split at h
    · cases h
    · rename_i he
      refine ⟨⟨hr, by simpa using he⟩, ?_⟩
      unfold State.nextOp State.hostOp at h
      split at h
      · exact .inl h
      · cases h; exact .inr (.inl ⟨_, rfl⟩)
      · cases h; exact .inr (.inl ⟨_, rfl⟩)
      · cases h; exact .inr (.inr rfl)

/-- A step of a live session whose next operation is a cycle is that cycle. -/
theorem step_of_cycleNext {s t : State} (hl : s.live) (h : s.cycleNext t) : step s = t.cycle := by
  unfold step State.guardedOp
  rw [hl.1]
  simp only [hl.2, Bool.false_eq_true, if_false]
  unfold State.nextOp
  rw [h]
  rfl

/-- Everything a tick can do (R410, R411). -/
theorem State.tick_cases (k : Timer) (s : State) :
    (s.timer k = 0 ∧ s.tick k = s.report (.timerIdle k)) ∨
    (s.timer k ≠ 0 ∧ s.tick k = s.writeTimer k (s.timer k - 1)) := by
  unfold State.tick
  split
  · rename_i h; exact .inl ⟨h, rfl⟩
  · rename_i h; exact .inr ⟨h, rfl⟩

end Sys2Proof.Machine
end

