-- ==== Sys2Proof/Laws/PerInstr.lean ====
section
/-! SUPPORT. ExtensionGate, a fact of every instruction's syntax: without the extension, the only well-formed instruction encoded in families 0xE and 0xF is UNIMPL (R104, R107, R360). -/

namespace Sys2Proof.Laws

/-- The statement of the family: with EXT_EF = false, a well-formed instruction whose word is in family 0xE or
0xF is UNIMPL of that word. -/
def ExtensionGate.Statement (i : Instr) : Prop :=
  i.wf false = true → 0xE000#16 ≤ encode i → i = .unimpl (encode i)

/-- The top nibble decides the comparison with 0xE000. -/
theorem encFXYN_lt {f : Nibble} (x y n : Nibble) (h : f.toNat < 0xE) : ¬(0xE000#16 ≤ encFXYN f x y n) := by
  rw [BitVec.le_def, encFXYN_toNat, BitVec.toNat_ofNat]
  omega

theorem encFXNN_lt {f : Nibble} (x : Nibble) (nn : Byte) (h : f.toNat < 0xE) : ¬(0xE000#16 ≤ encFXNN f x nn) := by
  rw [BitVec.le_def, encFXNN_toNat, BitVec.toNat_ofNat]
  omega

theorem encFNNN_lt {f : Nibble} (nnn : Addr) (h : f.toNat < 0xE) : ¬(0xE000#16 ≤ encFNNN f nnn) := by
  rw [BitVec.le_def, encFNNN_toNat, BitVec.toNat_ofNat]
  omega

namespace ExtensionGate

theorem cls : Statement .cls := fun _ h => absurd h (by decide)
theorem ret : Statement .ret := fun _ h => absurd h (by decide)
theorem jp (nnn : Addr) : Statement (.jp nnn) := fun _ h => absurd h (encFNNN_lt nnn (by decide))
theorem call (nnn : Addr) : Statement (.call nnn) := fun _ h => absurd h (encFNNN_lt nnn (by decide))
theorem seByte (x : Nibble) (nn : Byte) : Statement (.seByte x nn) := fun _ h => absurd h (encFXNN_lt x nn (by decide))
theorem sneByte (x : Nibble) (nn : Byte) : Statement (.sneByte x nn) := fun _ h => absurd h (encFXNN_lt x nn (by decide))
theorem seReg (x y : Nibble) : Statement (.seReg x y) := fun _ h => absurd h (encFXYN_lt x y 0 (by decide))
theorem ldByte (x : Nibble) (nn : Byte) : Statement (.ldByte x nn) := fun _ h => absurd h (encFXNN_lt x nn (by decide))
theorem addByte (x : Nibble) (nn : Byte) : Statement (.addByte x nn) := fun _ h => absurd h (encFXNN_lt x nn (by decide))
theorem ldReg (x y : Nibble) : Statement (.ldReg x y) := fun _ h => absurd h (encFXYN_lt x y 0 (by decide))
theorem orReg (x y : Nibble) : Statement (.orReg x y) := fun _ h => absurd h (encFXYN_lt x y 1 (by decide))
theorem andReg (x y : Nibble) : Statement (.andReg x y) := fun _ h => absurd h (encFXYN_lt x y 2 (by decide))
theorem xorReg (x y : Nibble) : Statement (.xorReg x y) := fun _ h => absurd h (encFXYN_lt x y 3 (by decide))
theorem addReg (x y : Nibble) : Statement (.addReg x y) := fun _ h => absurd h (encFXYN_lt x y 4 (by decide))
theorem subReg (x y : Nibble) : Statement (.subReg x y) := fun _ h => absurd h (encFXYN_lt x y 5 (by decide))
theorem shr (x y : Nibble) : Statement (.shr x y) := fun _ h => absurd h (encFXYN_lt x y 6 (by decide))
theorem subn (x y : Nibble) : Statement (.subn x y) := fun _ h => absurd h (encFXYN_lt x y 7 (by decide))
theorem shl (x y : Nibble) : Statement (.shl x y) := fun _ h => absurd h (encFXYN_lt x y 0xE (by decide))
theorem unimpl (w : Word) : Statement (.unimpl w) := fun _ _ => rfl
theorem sneReg (x y : Nibble) : Statement (.sneReg x y) := fun _ h => absurd h (encFXYN_lt x y 0 (by decide))
theorem ldI (nnn : Addr) : Statement (.ldI nnn) := fun _ h => absurd h (encFNNN_lt nnn (by decide))
theorem jpV0 (nnn : Addr) : Statement (.jpV0 nnn) := fun _ h => absurd h (encFNNN_lt nnn (by decide))
theorem rnd (x : Nibble) (nn : Byte) : Statement (.rnd x nn) := fun _ h => absurd h (encFXNN_lt x nn (by decide))
theorem drw (x y n : Nibble) : Statement (.drw x y n) := fun _ h => absurd h (encFXYN_lt x y n (by decide))
theorem skp (x : Nibble) : Statement (.skp x) := fun h => absurd h Bool.false_ne_true
theorem sknp (x : Nibble) : Statement (.sknp x) := fun h => absurd h Bool.false_ne_true
theorem ldVxDT (x : Nibble) : Statement (.ldVxDT x) := fun h => absurd h Bool.false_ne_true
theorem ldVxK (x : Nibble) : Statement (.ldVxK x) := fun h => absurd h Bool.false_ne_true
theorem ldDTVx (x : Nibble) : Statement (.ldDTVx x) := fun h => absurd h Bool.false_ne_true
theorem ldSTVx (x : Nibble) : Statement (.ldSTVx x) := fun h => absurd h Bool.false_ne_true
theorem addI (x : Nibble) : Statement (.addI x) := fun h => absurd h Bool.false_ne_true
theorem ldF (x : Nibble) : Statement (.ldF x) := fun h => absurd h Bool.false_ne_true
theorem ldB (x : Nibble) : Statement (.ldB x) := fun h => absurd h Bool.false_ne_true
theorem storeRegs (x : Nibble) : Statement (.storeRegs x) := fun h => absurd h Bool.false_ne_true
theorem loadRegs (x : Nibble) : Statement (.loadRegs x) := fun h => absurd h Bool.false_ne_true

end ExtensionGate

end Sys2Proof.Laws
end

