-- ==== Sys2Proof/Tests/Slice0.lean ====
section
/-! SUPPORT. The model's own tests: well-formedness, decoding, one step per vector of 95_test_vectors.md (its ids V<n> and W<n> are named), and a witness for the hypotheses of each statement. -/

namespace Sys2Proof.Tests

open Sys2Proof.Machine

/-! ## Well-formedness: an ill-formed term for each check -/

theorem test_wf_refuses_cls_word_as_unimpl : Instr.wf false (.unimpl 0x00E0#16) = false := by decide
theorem test_wf_refuses_shl_word_as_unimpl : Instr.wf false (.unimpl 0x812E#16) = false := by decide
theorem test_wf_refuses_ext_word_as_unimpl : Instr.wf true (.unimpl 0xF233#16) = false := by decide
theorem test_wf_refuses_skp_without_ext : Instr.wf false (.skp 1#4) = false := by decide
theorem test_wf_refuses_load_without_ext : Instr.wf false (.loadRegs 1#4) = false := by decide
theorem test_wf_accepts_unimpl_words :
    Instr.wf false (.unimpl 0xF233#16) = true ∧ Instr.wf true (.unimpl 0xE19F#16) = true ∧
    Instr.wf true (.unimpl 0x800D#16) = true := by decide

/-! ## Decoding: words written out from R102, R104 and R360 -/

/-- V1, V2, V3 and R105. -/
theorem test_decode_family0 :
    decode false 0x00E0#16 = .cls ∧ decode false 0x0000#16 = .cls ∧ decode false 0x0120#16 = .cls ∧
    decode false 0x00EE#16 = .ret ∧ decode false 0x0001#16 = .ret ∧ decode false 0x0123#16 = .ret := by decide

theorem test_decode_control :
    decode false 0b0001001000110100#16 = .jp 0x234#12 ∧ decode false 0b0010001000010000#16 = .call 0x210#12 ∧
    decode false 0b0011001100010010#16 = .seByte 3#4 0x12#8 ∧ decode false 0b0100001100010010#16 = .sneByte 3#4 0x12#8 ∧
    decode false 0b0101000100100000#16 = .seReg 1#4 2#4 ∧ decode false 0b1011001000000110#16 = .jpV0 0x206#12 := by
  decide

/-- V4, V5: families 5 and 9 ignore N (R106). -/
theorem test_decode_ignores_n :
    decode false 0x5121#16 = .seReg 1#4 2#4 ∧ decode false 0x912F#16 = .sneReg 1#4 2#4 := by decide

theorem test_decode_family8 :
    decode false 0x8AB0#16 = .ldReg 10#4 11#4 ∧ decode false 0x8AB1#16 = .orReg 10#4 11#4 ∧
    decode false 0x8AB2#16 = .andReg 10#4 11#4 ∧ decode false 0x8AB3#16 = .xorReg 10#4 11#4 ∧
    decode false 0x8AB4#16 = .addReg 10#4 11#4 ∧ decode false 0x8AB5#16 = .subReg 10#4 11#4 ∧
    decode false 0x8AB6#16 = .shr 10#4 11#4 ∧ decode false 0x8AB7#16 = .subn 10#4 11#4 ∧
    decode false 0x8ABE#16 = .shl 10#4 11#4 := by decide

theorem test_decode_immediates :
    decode false 0b0110101001000010#16 = .ldByte 10#4 0x42#8 ∧ decode false 0b0111000100100000#16 = .addByte 1#4 0x20#8 ∧
    decode false 0b1010001000001110#16 = .ldI 0x20E#12 ∧ decode false 0b1100001100001111#16 = .rnd 3#4 0x0F#8 ∧
    decode false 0b1101000000010011#16 = .drw 0#4 1#4 3#4 := by decide

/-- V9, V10: the unimplemented words (R107). -/
theorem test_decode_unimpl :
    decode false 0x8128#16 = .unimpl 0x8128#16 ∧ decode false 0x812D#16 = .unimpl 0x812D#16 ∧
    decode false 0x812F#16 = .unimpl 0x812F#16 ∧ decode false 0xE19E#16 = .unimpl 0xE19E#16 ∧
    decode false 0xF233#16 = .unimpl 0xF233#16 ∧ decode false 0xFFFF#16 = .unimpl 0xFFFF#16 := by decide

theorem test_decode_extension :
    decode true 0xE19E#16 = .skp 1#4 ∧ decode true 0xE1A1#16 = .sknp 1#4 ∧ decode true 0xF207#16 = .ldVxDT 2#4 ∧
    decode true 0xF40A#16 = .ldVxK 4#4 ∧ decode true 0xF215#16 = .ldDTVx 2#4 ∧ decode true 0xF218#16 = .ldSTVx 2#4 ∧
    decode true 0xF11E#16 = .addI 1#4 ∧ decode true 0xF129#16 = .ldF 1#4 ∧ decode true 0xF133#16 = .ldB 1#4 ∧
    decode true 0xF155#16 = .storeRegs 1#4 ∧ decode true 0xF165#16 = .loadRegs 1#4 ∧
    decode true 0xF1FF#16 = .unimpl 0xF1FF#16 := by decide

/-- The canonical words of R109. -/
theorem test_encode :
    encode .cls = 0x00E0#16 ∧ encode .ret = 0x00EE#16 ∧ encode (.jp 0x234#12) = 0x1234#16 ∧
    encode (.seReg 1#4 2#4) = 0x5120#16 ∧ encode (.shl 1#4 2#4) = 0x812E#16 ∧ encode (.drw 1#4 2#4 3#4) = 0xD123#16 ∧
    encodeBytes (.rnd 3#4 0x0F#8) = [0xC3#8, 0x0F#8] := by decide

/-- W14: the byte at the lower address is the high byte; a lone byte is refused by name. -/
theorem test_decode_bytes :
    decodeBytes false [0x12#8, 0x34#8, 0x56#8] = .ok (.jp 0x234#12, [0x56#8]) := by rfl
theorem test_decode_truncated : decodeBytes false [0x12#8] = .error .truncated := by rfl

/-! ## Helpers -/

/-- The reset state with some V registers set. -/
def regs (l : List (Nibble × Nat)) : State := l.foldl (fun s p => s.writeV p.1 p.2) State.reset

/-- Bytes stored at an address. -/
def put (a : Nat) (bs : List Byte) (s : State) : State := { s with mem := s.mem.writeBytes a bs }

/-- The next state of one step that fetches the word `w` at pc. -/
def after (w : Nat) (s : State) : Option State :=
  match step (s.withFetchWord 16 w) with
  | .next t => some t
  | .fault _ => none
  | .refused _ => none

/-- The refusal of one step that fetches the word `w` at pc. -/
def refusal (w : Nat) (s : State) : Option Refusal :=
  match step (s.withFetchWord 16 w) with
  | .next _ => none
  | .fault _ => none
  | .refused r => some r

/-- `V[x]` and VF after the word `w`. -/
def vAfter (w : Nat) (x : Nibble) (s : State) : Option (Nat × Nat) :=
  (after w s).map fun t => (t.readV x, t.readV flagReg)

/-- pc after the word `w`, when the session is Running. -/
def pcAfter (w : Nat) (s : State) : Option Nat :=
  (after w s).bind fun t => if t.status = .running then some t.pc else none

/-- The run status after the word `w`. -/
def statusAfter (w : Nat) (s : State) : Option RunStatus := (after w s).map (·.status)

/-- The pixels that are on in row `y`, by column. -/
def litColumns (y : Nat) (s : State) : List Nat := (List.range 64).filter fun x => pixel s.fb y x

/-- How many pixels are on in all. -/
def litCount (s : State) : Nat := (s.fb.map fun r => (r.filter id).length).sum

/-! ## Reset, construction, the cycle -/

theorem test_reset : State.reset.pc = 0x200 ∧ State.reset.sp = 0 ∧ State.reset.status = .running := by decide

/-- P8, I9: glyph 2 of the default font, at 5 * 2 (R79). -/
theorem test_default_font :
    (List.range 5).map (fun k => State.reset.byteAt (10 + k)) = [0xF0, 0x10, 0xF0, 0x80, 0xF0] ∧
    State.reset.byteAt 0x50 = 0 := by decide

/-- W11: 79 or 81 entries, or an entry of 256. -/
theorem test_construct_bad_font :
    (construct {} (List.replicate 79 0) []).status = .aborted .fontMalformed ∧
    (construct {} (List.replicate 81 0) []).status = .aborted .fontMalformed ∧
    (construct {} (256 :: List.replicate 79 0) []).status = .aborted .fontMalformed := by decide

/-- V170, W12, with a font of five bytes. -/
theorem test_construct_program :
    let s := construct { fontLen := 5 } (List.replicate 5 7) [0x12, 0x00]
    [s.byteAt 0x200, s.byteAt 0x201, s.byteAt 0, s.byteAt 4, s.byteAt 5] = [0x12, 0, 7, 7, 0] ∧
      s.pc = 0x200 ∧ s.status = .running := by decide

/-- R9, R501: the sizes and places are the session's parameters. -/
theorem test_construct_other_sizes :
    let s := construct { memSize := 0x40, loadOffset := 0x20, fontBase := 8, fontLen := 5 } (List.replicate 5 7) [0x12]
    [s.byteAt 7, s.byteAt 8, s.byteAt 12, s.byteAt 13, s.byteAt 0x20] = [0, 7, 7, 0, 0x12] ∧
      s.pc = 0x20 ∧ s.status = .running := by decide

/-- V172: with a font that is good, 3585 bytes are too many. -/
theorem test_construct_long_program (p : List Byte) (h : p.length = 3585) :
    (construct {} (List.replicate 80 0) p).status = .aborted (.programTooLarge 3585) := by
  have hf : fontOk {} (List.replicate 80 0) = true := by decide
  have hm : (3584 : Nat) = Config.programMax {} := rfl
  unfold construct
  rw [hf, ← hm, h]
  rfl

/-- V6, V7: the fetch at 0xFFE aborts, the one at 0xFFC runs. -/
theorem test_fetch_at_end :
    statusAfter 0x6105 { State.reset with pc := 0xFFE } = some (.aborted (.pcOutOfRange 0x1000)) ∧
    pcAfter 0x6105 { State.reset with pc := 0xFFC } = some 0xFFE := by decide

/-- V8: an odd pc is legal. -/
theorem test_odd_pc : pcAfter 0x6107 { State.reset with pc := 0x201 } = some 0x203 := by decide

/-! ## Control flow -/

/-- V28, V29. -/
theorem test_ret :
    (after 0x00EE { State.reset with sp := 1, stack := State.reset.stack.set 0 0x206 }).map
      (fun t => (t.pc, t.sp, t.entry 0)) = some (0x206, 0, 0x206) := by decide
theorem test_ret_empty : statusAfter 0x00EE State.reset = some (.aborted (.stackUnderflow 0x200)) := by decide

/-- V20, V21, V22. -/
theorem test_jp : pcAfter 0x1234 State.reset = some 0x234 ∧ pcAfter 0x1FFE State.reset = some 0xFFE := by decide
theorem test_jp_out_of_range : statusAfter 0x1FFF State.reset = some (.aborted (.pcOutOfRange 0xFFF)) := by decide

/-- V24 and V26. -/
theorem test_call :
    (after 0x2210 { State.reset with pc := 0x204 }).map (fun t => (t.pc, t.sp, t.entry 0)) =
      some (0x210, 1, 0x206) := by decide
theorem test_call_overflow :
    (after 0x2210 { State.reset with pc := 0x204, sp := 16 }).map (fun t => (t.pc, t.sp, t.reports)) =
      some (0x206, 16, [.stackOverflow 0x204 0x2210]) := by decide

/-- V30, V31, V40, V38. -/
theorem test_se_byte :
    pcAfter 0x3312 (regs [(3#4, 0x12)]) = some 0x204 ∧ pcAfter 0x3312 (regs [(3#4, 0x13)]) = some 0x202 := by
  decide
theorem test_se_byte_at_end :
    pcAfter 0x3312 { regs [(3#4, 0x12)] with pc := 0xFFA } = some 0xFFE ∧
    statusAfter 0x3312 { regs [(3#4, 0x12)] with pc := 0xFFB } = some (.aborted (.pcOutOfRange 0xFFF)) := by decide
/-- V32, V33. -/
theorem test_sne_byte :
    pcAfter 0x4312 (regs [(3#4, 0x13)]) = some 0x204 ∧ pcAfter 0x4312 (regs [(3#4, 0x12)]) = some 0x202 := by
  decide
/-- V34, V36. -/
theorem test_se_reg : pcAfter 0x5120 (regs [(1#4, 7), (2#4, 7)]) = some 0x204 := by decide
theorem test_sne_reg : pcAfter 0x9120 (regs [(1#4, 7), (2#4, 8)]) = some 0x204 := by decide
/-- V42, V45, V46. -/
theorem test_jp_v0 :
    pcAfter 0xB206 (regs [(0#4, 4)]) = some 0x20A ∧
    statusAfter 0xBFFF (regs [(0#4, 0x10)]) = some (.aborted (.pcOutOfRange 0x100F)) := by decide
theorem test_jp_vx : pcAfter 0xB206 { regs [(2#4, 4)] with cfg.quirkJump := .jumpVX } = some 0x20A := by decide

/-! ## Register ALU: V[X] and VF after the word -/

/-- W1, V61. -/
theorem test_ld_byte :
    vAfter 0x6A42 10#4 State.reset = some (0x42, 0) ∧ vAfter 0x6F07 15#4 State.reset = some (7, 7) := by decide
/-- W2, V64. -/
theorem test_add_byte :
    vAfter 0x7120 1#4 (regs [(1#4, 0xF0)]) = some (0x10, 0) ∧
    vAfter 0x7F02 15#4 (regs [(15#4, 0xFF)]) = some (1, 1) := by decide
/-- V65 to V68. -/
theorem test_ld_reg : vAfter 0x8120 1#4 (regs [(2#4, 0x33)]) = some (0x33, 0) := by decide
theorem test_or : vAfter 0x8121 1#4 (regs [(1#4, 0xF0), (2#4, 0x0F), (15#4, 5)]) = some (0xFF, 5) := by decide
theorem test_and : vAfter 0x8122 1#4 (regs [(1#4, 0xF0), (2#4, 0x3C)]) = some (0x30, 0) := by decide
theorem test_xor : vAfter 0x8123 1#4 (regs [(1#4, 0xFF), (2#4, 0x0F)]) = some (0xF0, 0) := by decide
/-- W3, V72; V100. -/
theorem test_add :
    vAfter 0x8124 1#4 (regs [(1#4, 0xFA), (2#4, 0x0A)]) = some (4, 1) ∧
    vAfter 0x8124 1#4 (regs [(1#4, 0x7F), (2#4, 0x80)]) = some (0xFF, 0) := by decide
theorem test_add_vf : vAfter 0x8F14 15#4 (regs [(15#4, 0xF0), (1#4, 0x20)]) = some (0x10, 0x10) := by decide
/-- V75, V76; V103. -/
theorem test_sub :
    vAfter 0x8125 1#4 (regs [(1#4, 5), (2#4, 5)]) = some (0, 1) ∧
    vAfter 0x8125 1#4 (regs [(1#4, 3), (2#4, 5)]) = some (0xFE, 0) := by decide
theorem test_sub_vf :
    vAfter 0x8F15 15#4 (regs [(15#4, 0x10), (1#4, 5)]) = some (0xFC, 0xFC) ∧
    vAfter 0x81F5 1#4 (regs [(15#4, 5), (1#4, 0x10)]) = some (0x0F, 1) := by decide
/-- V78, V81; V108. -/
theorem test_shr :
    vAfter 0x8126 1#4 (regs [(1#4, 0x81)]) = some (0x40, 1) ∧
    vAfter 0x8126 1#4 { regs [(1#4, 0xFF), (2#4, 0x81)] with cfg.quirkShift := .shiftVY } = some (0x40, 1) := by
  decide
theorem test_shr_vf : vAfter 0x8F26 15#4 (regs [(15#4, 3)]) = some (0, 0) := by decide
/-- V83, V84; V111. -/
theorem test_subn :
    vAfter 0x8127 1#4 (regs [(1#4, 5), (2#4, 3)]) = some (0xFE, 0) ∧
    vAfter 0x8127 1#4 (regs [(1#4, 7), (2#4, 7)]) = some (0, 1) := by decide
theorem test_subn_vf : vAfter 0x81F7 1#4 (regs [(1#4, 3), (15#4, 5)]) = some (0xFE, 1) := by decide
/-- V86, V90; V113. -/
theorem test_shl :
    vAfter 0x812E 1#4 (regs [(1#4, 0x81)]) = some (2, 1) ∧
    vAfter 0x812E 1#4 { regs [(2#4, 0x81)] with cfg.quirkShift := .shiftVY } = some (2, 1) := by decide
theorem test_shl_vf : vAfter 0x8F2E 15#4 (regs [(15#4, 0x81)]) = some (2, 2) := by decide
/-- R264: a `VF_ALIAS = Fault` session refuses the word of V100. -/
theorem test_vf_alias_fault :
    refusal 0x8F14 { State.reset with cfg.vfAlias := .fault } = some .vfOperand := by decide
/-- V92. -/
theorem test_ld_i : (after 0xAFFF State.reset).map (·.i) = some 0x0FFF := by decide
/-- V93, V94. -/
theorem test_rnd : vAfter 0xC30F 3#4 { State.reset with randoms := [0xA7] } = some (7, 0) := by decide
theorem test_rnd_zero_mask : ((after 0xC300 State.reset).map fun t => t.randoms) = some [] := by decide

/-! ## Other widths than those of R9 (R9, R251, R256, R260, R263, R367) -/

/-- V of 10 bits: sums wrap at 1024, the carry and the lost bit are those of bit 9. -/
theorem test_v_of_ten_bits :
    let s : State := ({ State.reset with cfg.vWidth := 10 }.writeV 1#4 0x3F0).writeV 2#4 0x20
    vAfter 0x7120 1#4 s = some (0x10, 0) ∧ vAfter 0x8124 1#4 s = some (0x10, 1) ∧
    vAfter 0x8215 2#4 s = some (0x30, 0) ∧ vAfter 0x812E 1#4 s = some (0x3E0, 1) := by decide

/-- I and pc of 12 bits, and timers of 4. -/
theorem test_narrow_registers :
    let s : State := { State.reset with cfg.iWidth := 12, cfg.pcWidth := 12, cfg.timerWidth := 4 }
    (after 0xF11E { s.writeV 1#4 1 with i := 0xFFF }).map (·.i) = some 0 ∧
    pcAfter 0x1FFE s = some 0xFFE ∧ (after 0xF215 (s.writeV 2#4 0x3C)).map (·.dt) = some 0xC := by decide

/-! ## Display -/

/-- V130. -/
theorem test_cls :
    (after 0x00E0 { regs [(15#4, 5)] with fb := togglePixel State.reset.fb 3 5 }).map
      (fun t => (litCount t, t.readV flagReg)) = some (0, 5) := by decide

/-- V134: clipped at the right edge, coordinates modulo 64 and 32. -/
theorem test_drw_clips :
    (after 0xD011 (put 0x300 [0xFF] { regs [(0#4, 0x7E), (1#4, 0x21)] with i := 0x300 })).map
      (fun t => (litColumns 1 t, litCount t, t.readV flagReg)) = some ([62, 63], 2, 0) := by decide

/-- V139: an XOR that turns a pixel off collides. -/
theorem test_drw_collides :
    (after 0xD011 (put 0x300 [0xC0] { regs [] with i := 0x300, fb := togglePixel State.reset.fb 0 0 })).map
      (fun t => (litColumns 0 t, t.readV flagReg)) = some ([1], 1) := by decide

/-- V136, V137: a clipped row is not read; a drawn row outside memory aborts. -/
theorem test_drw_bounds :
    statusAfter 0xD012 { regs [(1#4, 31)] with i := 0xFFF } = some .running ∧
    statusAfter 0xD012 { regs [] with i := 0xFFF } = some (.aborted (.memOutOfBounds 0x1000)) := by decide

/-- V141: VF is read as a coordinate before it is cleared. -/
theorem test_drw_vf :
    (after 0xDF11 (put 0x300 [0xFF] { regs [(15#4, 0x3E)] with i := 0x300 })).map
      (fun t => (litColumns 0 t, t.readV flagReg)) = some ([62, 63], 0) := by decide

/-! ## Unimplemented opcodes -/

/-- W13. -/
theorem test_unimpl :
    (after 0x8128 State.reset).map (fun t => (t.pc, t.reports)) =
      some (0x202, [.unimplementedOpcode 0x200 0x8128]) := by decide

/-- V150: an 0xF word with the extension off, in memory at pc. -/
theorem test_unimpl_ext_off :
    (match step (put 0x200 [0xF0, 0x0A] { State.reset with schedule := [.cycle] }) with
      | .next t => t.reports
      | _ => []) = [.unimplementedOpcode 0x200 0xF00A] := by decide

/-! ## Timers -/

/-- V160, V161, V162. -/
theorem test_tick :
    ({ State.reset with dt := 1 }.tick .delay).dt = 0 ∧
    (State.reset.tick .delay).reports = [.timerIdle .delay] ∧
    ({ State.reset with dt := 5 }.tick .sound).dt = 5 := by decide

/-! ## The extension -/

/-- V180, V181, V182. -/
theorem test_skp :
    pcAfter 0xE19E { regs [(1#4, 5)] with keyPolls := [0x0020] } = some 0x204 ∧
    pcAfter 0xE19E { regs [(1#4, 5)] with keyPolls := [0xFFDF] } = some 0x202 ∧
    pcAfter 0xE19E { regs [(1#4, 5)] with keyPolls := [0xFFDF], pc := 0xFFB } = some 0xFFD := by decide
theorem test_sknp : pcAfter 0xE1A1 { regs [(1#4, 5)] with keyPolls := [0xFFDF] } = some 0x204 := by decide
theorem test_skp_index : refusal 0xE19E (regs [(1#4, 0x10)]) = some .keyIndexRange := by decide
/-- V183 to V187. -/
theorem test_ld_vx_dt : vAfter 0xF207 2#4 { State.reset with dt := 0x3C } = some (0x3C, 0) := by decide
theorem test_ld_vx_k :
    (after 0xF40A { State.reset with keyPolls := [0x0208] }).map (fun t => (t.readV 4#4, t.pc)) =
      some (3, 0x202) := by decide
theorem test_ld_vx_k_waits :
    (after 0xF40A { regs [(4#4, 9)] with pc := 0x300, keyPolls := [0] }).map (fun t => (t.readV 4#4, t.pc)) =
      some (9, 0x300) := by decide
theorem test_ld_dt : (after 0xF215 (regs [(2#4, 0x3C)])).map (fun t => (t.dt, t.st)) = some (0x3C, 0) := by decide
theorem test_ld_st : (after 0xF218 (regs [(2#4, 5)])).map (fun t => (t.dt, t.st)) = some (0, 5) := by decide
/-- V188 to V194. -/
theorem test_add_i : (after 0xF11E { regs [(1#4, 1)] with i := 0xFFFF }).map (·.i) = some 0 := by decide
theorem test_ld_f : (after 0xF129 (regs [(1#4, 0x0A)])).map (·.i) = some 0x032 := by decide
theorem test_ld_b :
    (after 0xF133 { regs [(1#4, 0xFE)] with i := 0x300 }).map
      (fun t => [t.byteAt 0x300, t.byteAt 0x301, t.byteAt 0x302]) = some [2, 5, 4] := by decide
theorem test_ld_b_end :
    statusAfter 0xF133 { regs [(1#4, 7)] with i := 0xFFE } = some (.aborted (.memOutOfBounds 0x1000)) := by decide
theorem test_store_regs :
    (after 0xF155 { regs [(0#4, 1), (1#4, 2)] with i := 0x300 }).map
      (fun t => (t.byteAt 0x300, t.byteAt 0x301, t.byteAt 0x302, t.i)) = some (1, 2, 0, 0x300) := by decide
theorem test_store_regs_increment :
    (after 0xF155 { regs [] with i := 0x300, cfg.quirkLoadStoreI := .increment }).map (·.i) = some 0x302 := by
  decide
theorem test_load_regs :
    (after 0xF165 (put 0x300 [7, 9] { regs [(2#4, 3)] with i := 0x300 })).map
      (fun t => (t.readV 0#4, t.readV 1#4, t.readV 2#4)) = some (7, 9, 3) := by decide

/-! ## Witnesses: states and operands that meet the hypotheses of each statement, clause by clause -/

/-- A live state at a pc, whose next operation is a cycle. -/
def at' (pc : Nat) : State := { State.reset with pc := pc, schedule := [.cycle] }

/-- The same state once that operation is taken. -/
def taken (s : State) : State := { s with schedule := [] }

theorem witness_decode_of_encode :
    Instr.wf false (.drw 15#4 15#4 15#4) = true ∧ Instr.wf true (.loadRegs 15#4) = true ∧
    Instr.wf false (.unimpl 0xF065) = true ∧ Instr.wf true (.unimpl 0x800F) = true := by decide

/-- After reset every register is of its width. -/
theorem reset_inWidths : State.reset.InWidths := ⟨by decide, by decide, by decide, by decide, by decide, by decide⟩

theorem witness_step_runs :
    (at' 0xFFC).cfg.Wf ∧ (at' 0xFFC).live ∧ (at' 0xFFC).cycleNext (taken (at' 0xFFC)) ∧
    (at' 0xFFC).cfg.pcOk ((at' 0xFFC).pc + 2) ∧
    decodeBytes (at' 0xFFC).cfg.extEF [(at' 0xFFC).byteAt 0xFFC, (at' 0xFFC).byteAt 0xFFD] = .ok (.cls, []) :=
  ⟨Config.wf_default, ⟨rfl, rfl⟩, rfl, by decide, by rfl⟩

theorem witness_fetch_at_end :
    (at' 0xFFE).live ∧ (at' 0xFFE).cycleNext (taken (at' 0xFFE)) ∧
    ((at' 0xFFE).cfg.pcOk (at' 0xFFE).pc ∧ ¬(at' 0xFFE).cfg.pcOk ((at' 0xFFE).pc + 2)) ∧
    ((at' 0xFFD).cfg.pcOk (at' 0xFFD).pc ∧ ¬(at' 0xFFD).cfg.pcOk ((at' 0xFFD).pc + 2)) :=
  ⟨⟨rfl, rfl⟩, rfl, by decide, by decide⟩

theorem witness_host_operation :
    (at' 0x200).schedule = .cycle :: [] ∧ State.reset.schedule = [] := by decide

/-- A state with the invariant, at the last pc whose fetch succeeds, with one live stack entry. -/
def lively : State := { at' 0xFFC with sp := 1, stack := State.reset.stack.set 0 0xFFE }

theorem lively_inv : lively.Inv := by
  refine ⟨Config.wf_default, ⟨by decide, by decide, by decide, fbShaped_blankFb {}⟩,
    ⟨by decide, by decide, by decide, by decide, by decide, by decide⟩, by rfl, by rfl, fun _ => by decide, ?_⟩
  intro _ k hk
  have h0 : k = 0 := by
    have : lively.sp = 1 := rfl
    omega
  subst h0
  decide

theorem witness_placed_word : lively.Inv ∧ lively.cfg.pcOk (lively.pc + 2) := ⟨lively_inv, by decide⟩

theorem witness_ret :
    lively.cfg.Wf ∧ (at' 0x202).cfg.Wf ∧ (at' 0x202).sp = 0 ∧ (lively.sp = 0 + 1 ∧ lively.cfg.pcOk (lively.entry 0)) ∧
    ({ lively with sp := 16 }.sp = 15 + 1 ∧ lively.cfg.pcOk (lively.entry 15)) ∧
    ({ lively with sp := 2 }.sp = 1 + 1 ∧
      ¬lively.cfg.pcOk (State.entry 1 { lively with stack := lively.stack.set 1 0xFFF })) :=
  ⟨Config.wf_default, Config.wf_default, by decide⟩

theorem witness_jp :
    State.reset.cfg.Wf ∧ State.reset.cfg.pcOk (0xFFE#12 : Addr).toNat ∧ ¬State.reset.cfg.pcOk (0xFFF#12 : Addr).toNat :=
  ⟨Config.wf_default, by decide⟩

theorem witness_call :
    lively.cfg.Wf ∧ lively.cfg.pcOk lively.pc ∧ { lively with sp := 15 }.sp < lively.cfg.stackDepth ∧ lively.cfg.stackDepth ≤ { lively with sp := 16 }.sp :=
  ⟨Config.wf_default, by decide⟩

/-- Taken in range (pc after the fetch is 0xFFC), taken out of range (0xFFD), not taken, for each skip. -/
theorem witness_skips :
    (at' 0xFFC).cfg.Wf ∧ ((at' 0xFFC).readV 1#4 = 0 ∧ (at' 0xFFC).readV 1#4 ≠ 1 ∧ (at' 0xFFC).readV 1#4 = (at' 0xFFC).readV 2#4 ∧
      (regs [(1#4, 1)]).readV 1#4 ≠ (regs [(1#4, 1)]).readV 2#4) ∧
    State.reset.cfg.pcOk ((at' 0xFFC).pc + 2) ∧ ¬State.reset.cfg.pcOk ((at' 0xFFD).pc + 2) :=
  ⟨Config.wf_default, by decide⟩

/-- The sum of R207 at both sides of 0xFFE, under both settings of QUIRK_JUMP. -/
theorem witness_indexed_jump :
    let s := regs [(0#4, 0xFF), (14#4, 0xFE)]
    let t : State := { s with cfg.quirkJump := .jumpVX }
    s.cfg.Wf ∧ t.cfg.Wf ∧ (0xFFE = (if s.cfg.quirkJump = .jumpV0 then s.readV 0#4 else s.readV 14#4) + ((14#4 : Nibble).toNat * 256 + (0xFF : Byte).toNat)) ∧
    (0xFFD = (if t.cfg.quirkJump = .jumpV0 then t.readV 0#4 else t.readV 14#4) + ((14#4 : Nibble).toNat * 256 + (0xFF : Byte).toNat)) ∧
    (0x10FE = (if s.cfg.quirkJump = .jumpV0 then s.readV 0#4 else s.readV 15#4) + ((15#4 : Nibble).toNat * 256 + (0xFF : Byte).toNat)) :=
  ⟨Config.wf_default, { Config.wf_default with }, by decide⟩

theorem witness_call_then_ret :
    ∃ t, exec (.call 0x210#12) (at' 0x206) = .next t ∧ (at' 0x206).cfg.Wf ∧ State.reset.cfg.pcOk (at' 0x206).pc ∧
      (at' 0x206).sp < State.reset.cfg.stackDepth ∧ State.reset.cfg.pcOk (0x210#12 : Addr).toNat ∧
      { t with v := (regs [(1#4, 1)]).v }.cfg = t.cfg ∧ { t with v := (regs [(1#4, 1)]).v }.sp = t.sp :=
  ⟨_, rfl, Config.wf_default, by decide, by decide, by decide, rfl, rfl⟩

/-- Operands at the top of V, in a state with the invariant's widths. -/
theorem witness_loads_and_logic :
    let s := (State.reset.writeV 1#4 0xFF).writeV 2#4 0xFF
    8 ≤ s.cfg.vWidth ∧ s.InWidths ∧ s.readV 1#4 = 0xFF ∧ s.readV 2#4 = 0xFF :=
  ⟨by decide, (reset_inWidths.writeV _ _).writeV _ _, by decide, by decide⟩

theorem witness_load_index : 12 ≤ State.reset.cfg.iWidth := by decide

/-- The session runs VF as an operand; or the operands are not VF; the source of a shift is V[X] or V[Y]. -/
theorem witness_flag_setting :
    State.reset.cfg.Wf ∧ State.reset.InWidths ∧ State.reset.sequential ∧ (1#4 ≠ flagReg ∧ 14#4 ≠ flagReg) ∧
    { State.reset with cfg.quirkShift := .shiftVY }.cfg.quirkShift ≠ .shiftVX ∧
    State.reset.cfg.quirkShift = .shiftVX ∧
    flagValue (State.reset.readV 1#4 ≤ State.reset.readV 2#4) = 1 :=
  ⟨Config.wf_default, reset_inWidths, rfl, by decide, by decide, by decide, by decide⟩

theorem witness_vf_as_operand :
    let s : State := { State.reset with cfg.quirkShift := .shiftVY }
    s.cfg.Wf ∧ s.InWidths ∧ s.sequential ∧ (1#4 : Nibble) ≠ flagReg ∧
    { State.reset with cfg.quirkShift := .shiftVY }.cfg.quirkShift = .shiftVY ∧ State.reset.cfg.quirkShift = .shiftVX :=
  ⟨{ Config.wf_default with }, { reset_inWidths with }, rfl, by decide, rfl, rfl⟩

theorem witness_rnd :
    State.reset.cfg.Wf ∧ { State.reset with randoms := [0xA7, 1] }.randoms = 0xA7 :: [1] ∧ State.reset.randoms = [] :=
  ⟨Config.wf_default, by decide⟩

/-- Rows that stay in memory because the bottom edge stops the sprite (V136), and rows that leave it (V137). -/
theorem witness_drw :
    let s : State := { regs [(1#4, 31)] with i := 0xFFF }
    s.cfg.Wf ∧ (∀ r, r < (2#4 : Nibble).toNat → s.readV 1#4 % s.cfg.dispH + r < s.cfg.dispH → s.i + r < s.cfg.memSize) ∧
    (1 < (2#4 : Nibble).toNat ∧ s.readV 2#4 % s.cfg.dispH + 1 < s.cfg.dispH ∧ s.cfg.memSize ≤ s.i + 1 ∧
      ∀ q, q < 1 → s.i + q < s.cfg.memSize) := by
  refine ⟨Config.wf_default, ?_⟩
  show (∀ r, _ → _ % 32 + r < 32 → _ + r < 4096) ∧ (_ ∧ _ ∧ _ ∧ ∀ q, _ → _ + q < 4096)
  refine ⟨?_, by decide, by decide, by decide, ?_⟩
  · intro r hr hb
    have h1 : ({ regs [(1#4, 31)] with i := 0xFFF } : State).readV 1#4 = 31 := by decide
    rw [h1] at hb
    have h2 : ({ regs [(1#4, 31)] with i := 0xFFF } : State).i = 0xFFF := rfl
    rw [h2]
    simp at hb ⊢
    omega
  · intro q hq
    have h2 : ({ regs [(1#4, 31)] with i := 0xFFF } : State).i = 0xFFF := rfl
    rw [h2]
    simp
    omega

/-- A sprite drawn twice in a row, the first time turning a pixel on. -/
theorem witness_draw_twice :
    ∃ t u, exec (.drw 0#4 1#4 1#4) (put 0x300 [0x80] { State.reset with i := 0x300 }) = .next t ∧
      t.status = .running ∧ exec (.drw 0#4 1#4 1#4) { t with pc := 0x204 } = .next u ∧
      pixel State.reset.fb 0 0 = false ∧ pixel t.fb 0 0 = true ∧ fbShaped State.reset.cfg State.reset.fb ∧
      State.reset.cfg.Wf :=
  ⟨_, _, rfl, by decide, rfl, by decide, by decide, fbShaped_blankFb {}, Config.wf_default⟩

theorem witness_unimplemented :
    let s := put 0xFFC [0xF0, 0x0A] (at' 0xFFC)
    s.cfg.Wf ∧ s.live ∧ s.cycleNext (taken s) ∧ s.cfg.pcOk (s.pc + 2) ∧
      0xF00A#16 = s.byteAt s.pc ++ s.byteAt (s.pc + 1) ∧ isUnimplWord s.cfg.extEF 0xF00A = true :=
  ⟨Config.wf_default, ⟨rfl, rfl⟩, rfl, by decide, by decide, by decide⟩

/-- Indexes 15 and 16; pc from which a skip is in range and out of range; the key pressed and released. -/
theorem witness_key_skips :
    State.reset.cfg.Wf ∧ 15 < (regs [(1#4, 16)]).readV 1#4 ∧
    (regs [(1#4, 15)]).readV 1#4 ≤ 15 ∧ State.reset.cfg.pcOk ((at' 0xFFC).pc + 2) ∧
    ¬State.reset.cfg.pcOk ((at' 0xFFD).pc + 2) ∧
    { regs [(1#4, 15)] with keyPolls := [0x8000] }.pollKeys.1.getLsbD 15 = true ∧
    { regs [(1#4, 15)] with keyPolls := [0x7FFF] }.pollKeys.1.getLsbD 15 = false :=
  ⟨Config.wf_default, by decide⟩

theorem witness_poll :
    { State.reset with keyPolls := [3, 4] }.keyPolls = 3 :: [4] ∧ State.reset.keyPolls = [] := by decide

/-- The highest key alone; no key, at the lowest and the highest pc that a cycle can leave. -/
theorem witness_key_wait :
    State.reset.cfg.Wf ∧ ({ State.reset with keyPolls := [0x8000] }.pollKeys.1.getLsbD 15 = true ∧
      (∀ j : Fin 15, { State.reset with keyPolls := [0x8000] }.pollKeys.1.getLsbD j.val = false)) ∧
    { State.reset with keyPolls := [0] }.pollKeys.1 = 0 ∧
    (2 ≤ (at' 2).pc ∧ State.reset.cfg.pcOk (at' 2).pc) ∧
    (2 ≤ (at' 0xFFE).pc ∧ State.reset.cfg.pcOk (at' 0xFFE).pc) :=
  ⟨Config.wf_default, by decide⟩

/-- The last address from which three digits, or the block, fit, and the first from which they do not. -/
theorem witness_block_moves :
    lively.cfg.Wf ∧ Memory.wf lively.mem = true ∧
    { lively with i := 0xFFD }.i + 2 < lively.cfg.memSize ∧ lively.cfg.memSize ≤ { lively with i := 0xFFE }.i + 2 ∧
    { lively with i := 0xFF0 }.i + (15#4 : Nibble).toNat < lively.cfg.memSize ∧
    lively.cfg.memSize ≤ { lively with i := 0xFF1 }.i + (15#4 : Nibble).toNat ∧
    lively.cfg.memSize ≤ { lively with i := 0xFFFF }.i + (0#4 : Nibble).toNat :=
  ⟨Config.wf_default, by decide⟩

theorem witness_ticks :
    let s : State := { State.reset with dt := 1, schedule := [.tickDelay] }
    let t : State := { State.reset with st := 1, schedule := [.tickSound, .cycle] }
    (s.InWidths ∧ s.live ∧ s.takeOp = (.tickDelay, taken s) ∧ 0 < s.dt) ∧
      (t.InWidths ∧ t.live ∧ t.takeOp = (.tickSound, { t with schedule := [.cycle] }) ∧ 0 < t.st) ∧
      State.reset.dt = 0 ∧ State.reset.st = 0 :=
  ⟨⟨{ reset_inWidths with dt := by decide }, ⟨rfl, rfl⟩, rfl, by decide⟩,
    ⟨{ reset_inWidths with st := by decide }, ⟨rfl, rfl⟩, rfl, by decide⟩, rfl, rfl⟩

theorem witness_no_operation :
    { State.reset with status := .aborted .fontMalformed }.status = .aborted .fontMalformed ∧
    ({ State.reset with ended := true }.status = .running ∧ { State.reset with ended := true }.ended = true) ∧
    ({ State.reset with schedule := [.shutdown] }.live ∧
      { State.reset with schedule := [.shutdown] }.takeOp = (.shutdown, State.reset)) :=
  ⟨rfl, ⟨rfl, rfl⟩, ⟨rfl, rfl⟩, rfl⟩

theorem witness_construct_fails :
    Config.Wf {} ∧ (List.replicate 79 0).length ≠ ({} : Config).fontLen ∧ (∃ k ∈ 256 :: List.replicate 79 0, 256 ≤ k) ∧
    ((List.replicate 80 255).length = 80 ∧ (∀ k ∈ List.replicate 80 255, k < 256) ∧
      ({} : Config).memSize < ({} : Config).loadOffset + (List.replicate 3585 (0 : Byte)).length) := by
  refine ⟨Config.wf_default, by decide, ⟨256, by simp, by decide⟩, by decide, ?_, by rw [List.length_replicate]; decide⟩
  intro k hk
  rw [List.eq_of_mem_replicate hk]
  decide

theorem witness_construct_loads :
    (List.replicate 80 255).length = 80 ∧ (∀ k ∈ List.replicate 80 255, k < 256) ∧
    ({} : Config).loadOffset + (List.replicate 3584 (0 : Byte)).length ≤ ({} : Config).memSize ∧
    ({} : Config).resetFill = .zero := by
  refine ⟨by decide, ?_, by rw [List.length_replicate], rfl⟩
  intro k hk
  rw [List.eq_of_mem_replicate hk]
  decide

/-- A step from a state with the invariant that answers a next state: a CLS, the word 0x0000. -/
theorem witness_step_keeps :
    ∃ t, lively.Inv ∧ step lively = .next t := ⟨_, lively_inv, rfl⟩

theorem witness_canonical :
    let m : Memory := [(0x200, 1), (0x201, 2)]
    Memory.wf m = true ∧ ∀ a, m.read a = m.read a := ⟨by decide, fun _ => rfl⟩

/-- Two states that differ in the tick rate, and the step, the fault and the refusal that both answer alike. -/
theorem witness_tick_rate :
    (∃ t, step (at' 0x200) = .next t) ∧ { State.reset with cfg.tickHz := 50 } ≠ State.reset ∧
    step { State.reset with ended := true } = .fault .sessionEnded ∧
    refusal 0xE19E { regs [(1#4, 0x10)] with cfg.tickHz := 50 } = some .keyIndexRange :=
  ⟨⟨_, rfl⟩, by decide, rfl, by decide⟩

/-- A running instruction for each of the frame statements: a DRW, a CALL, an LD I, an OR. -/
theorem witness_frames :
    (∃ t, exec (.drw 0#4 1#4 1#4) State.reset = .next t ∧ t.status = .running ∧ t.fb ≠ State.reset.fb) ∧
    (∃ t, exec (.call 0x210#12) (at' 0x206) = .next t ∧ t.status = .running ∧ t.stack ≠ (at' 0x206).stack) ∧
    (∃ t, exec (.ldI 0x210#12) State.reset = .next t ∧ t.status = .running ∧ t.i ≠ State.reset.i) ∧
    (∃ t, exec (.orReg 1#4 2#4) State.reset = .next t ∧ t.status = .running ∧
      Instr.mayWriteV (.orReg 1#4 2#4) 3#4 = false ∧ Instr.mayWritePc (.orReg 1#4 2#4) = false) :=
  ⟨⟨_, rfl, by decide, by decide⟩, ⟨_, rfl, by decide, by decide⟩, ⟨_, rfl, by decide, by decide⟩, ⟨_, rfl, by decide, by decide, by decide⟩⟩

/-- A cycle of the minimum core that answers a running state, and the step of the same state. -/
theorem witness_minimum_core :
    ∃ t, (at' 0x200).cfg.extEF = false ∧ (at' 0x200).status = .running ∧ (taken (at' 0x200)).cycle = .next t ∧
      step (at' 0x200) = .next t ∧ t.status = .running ∧ t.cfg = State.reset.cfg :=
  ⟨_, rfl, rfl, rfl, rfl, by decide, by decide⟩

theorem witness_stored_word :
    let s : State := { lively with pc := 0x300, i := 0x300 }
    s.live ∧ s.cfg.pcOk (s.pc + 2) ∧ s.i = s.pc ∧ 1 ≤ (1#4 : Nibble).toNat ∧
      s.i + (1#4 : Nibble).toNat < s.cfg.memSize ∧
      ∃ t, exec (.storeRegs 1#4) s = .next t ∧ t.cycleNext (taken t) :=
  ⟨⟨rfl, rfl⟩, by decide, rfl, by decide, by decide, _, rfl, rfl⟩

end Sys2Proof.Tests
end

/-! # The session's parameters (00_scope.md R9, R10, R15): the fetch's range check, their constancy, the tick rate

Lemmas first, each about one definition of the model; the statements of the family are settled at the end. -/

namespace Sys2Proof.Machine

/-! ## Aborts of the fetch -/

/-- Raising a fatal condition is an abort with it, as the statements describe one (R402, log 10). -/
theorem abortsWith_raiseFatal (s : State) (f : Fatal) : abortsWith (.next (s.raiseFatal f)) f s :=
  ⟨_, rfl, rfl, rfl, rfl, rfl, rfl⟩

/-- Taking a cycle from the host changes only what the host supplies. -/
theorem State.cycleNext.frame {s t : State} (h : s.cycleNext t) :
    t = { s with schedule := t.schedule, free := t.free } := by
  have := s.takeOp_frame
  rwa [show s.takeOp = (HostOp.cycle, t) from h] at this

/-- A cycle whose fetch is fatal is the abort alone: nothing is decoded (R101). -/
theorem State.cycle_of_fetch_error {s : State} {f : Fatal} (h : s.fetch = .error f) :
    s.cycle = .next (s.raiseFatal f) := by
  rw [State.cycle, h]

/-- A cycle at the end of memory: the advance is out of range and the cycle aborts (R15; D4; log 19). -/
theorem State.cycle_of_advance_not_ok {s : State} (hpc : s.cfg.pcOk s.pc) (hadv : ¬s.cfg.pcOk (s.pc + 2)) :
    s.cycle = .next (s.raiseFatal (.pcOutOfRange (s.pc + 2))) := by
  rcases s.fetch_cases hpc with ⟨h, _⟩ | ⟨_, e⟩
  · exact absurd h hadv
  · exact State.cycle_of_fetch_error e

/-! ## The parameters stay (R10) -/

theorem exec_cfg {i : Instr} {s t : State} (h : exec i s = .next t) : t.cfg = s.cfg := by
  rcases exec_next h with he | ⟨f, u, rfl, _, hcfg, _⟩
  · exact he.cfg
  · exact hcfg

theorem cycle_cfg {s t : State} (h : s.cycle = .next t) : t.cfg = s.cfg := by
  rcases cycle_next h with ⟨f, _, rfl⟩ | ⟨_, he⟩
  · rfl
  · exact (exec_cfg he).trans (s.putPc_cfg _)

@[simp] theorem State.tick_cfg (k : Timer) (s : State) : (s.tick k).cfg = s.cfg := by
  rcases s.tick_cases k with ⟨_, e⟩ | ⟨_, e⟩ <;> rw [e]
  · rfl
  · cases k <;> rfl

@[simp] theorem State.takeOp_cfg (s : State) : s.takeOp.2.cfg = s.cfg := by rw [s.takeOp_frame]

theorem step_cfg {s t : State} (h : step s = .next t) : t.cfg = s.cfg := by
  obtain ⟨_, hc | ⟨k, rfl⟩ | rfl⟩ := step_next h
  · rw [cycle_cfg hc, State.takeOp_cfg]
  · rw [State.tick_cfg, State.takeOp_cfg]
  · rw [State.shutdown_cfg, State.takeOp_cfg]

/-! ## Another tick rate

Every operation of the model commutes with `State.withRate`: one lemma per operation, which moves the change of the
rate outward, up to `step_withRate`. -/

/-- The session with another tick rate (R9, R412). -/
def State.withRate (hz : Nat) (s : State) : State := { s with cfg.tickHz := hz }

/-- The outcome with another tick rate: the next state's rate changes, a fault or a refusal is the same. -/
def outcomeWithRate (hz : Nat) : Host.Outcome State Fault Refusal → Host.Outcome State Fault Refusal
  | .next t => .next (t.withRate hz)
  | .fault f => .fault f
  | .refused r => .refused r

section WithRate

variable (hz : Nat) (s : State)

/-! ### Reads -/

@[simp] theorem State.withRate_i : (s.withRate hz).i = s.i := rfl
@[simp] theorem State.withRate_pc : (s.withRate hz).pc = s.pc := rfl
@[simp] theorem State.withRate_fb : (s.withRate hz).fb = s.fb := rfl
@[simp] theorem State.withRate_status : (s.withRate hz).status = s.status := rfl
@[simp] theorem State.withRate_ended : (s.withRate hz).ended = s.ended := rfl
@[simp] theorem State.withRate_schedule : (s.withRate hz).schedule = s.schedule := rfl
@[simp] theorem State.withRate_randoms : (s.withRate hz).randoms = s.randoms := rfl
@[simp] theorem State.withRate_keyPolls : (s.withRate hz).keyPolls = s.keyPolls := rfl
@[simp] theorem State.withRate_free : (s.withRate hz).free = s.free := rfl
@[simp] theorem State.withRate_dispW : (s.withRate hz).cfg.dispW = s.cfg.dispW := rfl
@[simp] theorem State.withRate_dispH : (s.withRate hz).cfg.dispH = s.cfg.dispH := rfl
@[simp] theorem State.withRate_quirkShift : (s.withRate hz).cfg.quirkShift = s.cfg.quirkShift := rfl
@[simp] theorem State.withRate_quirkLoadStoreI : (s.withRate hz).cfg.quirkLoadStoreI = s.cfg.quirkLoadStoreI := rfl
@[simp] theorem State.readV_withRate (x : Nibble) : (s.withRate hz).readV x = s.readV x := rfl
@[simp] theorem State.timer_withRate (k : Timer) : (s.withRate hz).timer k = s.timer k := by cases k <;> rfl
@[simp] theorem State.memRead_withRate (a : Nat) : (s.withRate hz).memRead a = s.memRead a := rfl

/-! ### Writes and conditions -/

@[simp] theorem State.report_withRate (r : Report) : (s.withRate hz).report r = (s.report r).withRate hz := rfl
@[simp] theorem State.writeTimer_withRate (k : Timer) (n : Nat) :
    (s.withRate hz).writeTimer k n = (s.writeTimer k n).withRate hz := by cases k <;> rfl

@[simp] theorem orAbort_withRate (e : Except Fatal State) :
    orAbort (s.withRate hz) (e.map (State.withRate hz)) = (orAbort s e).withRate hz := by cases e <;> rfl

/-! ### pc and the stack -/

theorem State.trySetPC_withRate (v : Nat) :
    (s.withRate hz).trySetPC v = (s.trySetPC v).map (State.withRate hz) := by
  rw [State.trySetPC, State.trySetPC, apply_ite (Except.map _)]
  rfl

@[simp] theorem State.setPC_withRate (v : Nat) : (s.withRate hz).setPC v = (s.setPC v).withRate hz := by
  rw [State.setPC, State.trySetPC_withRate, orAbort_withRate, State.setPC]

@[simp] theorem State.skipIf_withRate (c : Bool) : (s.withRate hz).skipIf c = (s.skipIf c).withRate hz := by
  cases c
  · rfl
  · exact s.setPC_withRate hz _

theorem State.push_withRate (n : Nat) : (s.withRate hz).push n = (s.push n).map (State.withRate hz) := by
  rw [State.push, State.push, apply_ite (Option.map _)]
  rfl

theorem State.pop_withRate : (s.withRate hz).pop = s.pop.map (Prod.map id (State.withRate hz)) := by
  rw [State.pop, State.pop, apply_ite (Option.map _)]
  rfl

/-! ### Memory and the screen -/

theorem State.memWrite_withRate (a : Nat) (b : Byte) :
    (s.withRate hz).memWrite a b = (s.memWrite a b).map (State.withRate hz) := by
  rw [State.memWrite, State.memWrite, apply_ite (Except.map _)]
  rfl

theorem State.memWriteList_withRate (a : Nat) (bs : List Byte) :
    (s.withRate hz).memWriteList a bs = (s.memWriteList a bs).map (State.withRate hz) := by
  induction bs generalizing a s with
  | nil => rfl
  | cons b bs ih =>
    rw [State.memWriteList, State.memWriteList, State.memWrite_withRate]
    cases s.memWrite a b with
    | ok t => exact ih t (a + 1)
    | error f => rfl

theorem State.loadRegsFrom_withRate (base n k : Nat) :
    (s.withRate hz).loadRegsFrom base n k = (s.loadRegsFrom base n k).map (State.withRate hz) := by
  induction n generalizing s k with
  | zero => rfl
  | succ n ih =>
    rw [State.loadRegsFrom, State.loadRegsFrom, State.memRead_withRate]
    cases s.memRead (base + k) with
    | ok b => exact ih (s.writeV _ b.toNat) (k + 1)
    | error f => rfl

@[simp] theorem State.drawRows_withRate (x0 y0 n r : Nat) (c : Canvas) :
    (s.withRate hz).drawRows x0 y0 n r c = s.drawRows x0 y0 n r c := by
  induction n generalizing r c with
  | zero => rfl
  | succ n ih => simp only [State.drawRows, State.memRead_withRate, State.withRate_i, State.withRate_dispW,
    State.withRate_dispH, ih]

theorem State.drawSprite_withRate (x y n : Nibble) :
    (s.withRate hz).drawSprite x y n = (s.drawSprite x y n).map (State.withRate hz) := by
  simp only [State.drawSprite, State.drawRows_withRate, State.readV_withRate, State.withRate_dispW,
    State.withRate_dispH, State.withRate_fb]
  split <;> rfl

/-! ### What the host supplies -/

theorem State.takeOp_withRate : (s.withRate hz).takeOp = Prod.map id (State.withRate hz) s.takeOp := by
  simp only [State.takeOp, State.withRate_schedule, State.withRate_free]
  split <;> rfl

theorem State.drawRandom_withRate : (s.withRate hz).drawRandom = Prod.map id (State.withRate hz) s.drawRandom := by
  simp only [State.drawRandom, State.withRate_randoms, State.withRate_free]
  split <;> rfl

theorem State.pollKeys_withRate : (s.withRate hz).pollKeys = Prod.map id (State.withRate hz) s.pollKeys := by
  simp only [State.pollKeys, State.withRate_keyPolls, State.withRate_free]
  split <;> rfl

/-! ### Operand forms -/

theorem State.guardAlias_withRate (aliases : Bool) (run : State) :
    (s.withRate hz).guardAlias aliases (run.withRate hz) = outcomeWithRate hz (s.guardAlias aliases run) := by
  rw [State.guardAlias, State.guardAlias, apply_ite (outcomeWithRate hz)]
  rfl

@[simp] theorem State.bumpI_withRate (x : Nibble) : (s.withRate hz).bumpI x = (s.bumpI x).withRate hz := by
  simp only [State.bumpI, State.withRate_quirkLoadStoreI]
  split <;> rfl

theorem map_bumpI_withRate (x : Nibble) (e : Except Fatal State) :
    (e.map (State.withRate hz)).map (fun t => t.bumpI x) =
      (e.map (fun t => t.bumpI x)).map (State.withRate hz) := by
  cases e with
  | error f => rfl
  | ok t => exact congrArg Except.ok (t.bumpI_withRate hz x)

/-! ### Instructions with a case of their own -/

theorem State.shrReg_withRate (x y : Nibble) : (s.withRate hz).shrReg x y = (s.shrReg x y).withRate hz := by
  simp only [State.shrReg, State.withRate_quirkShift]
  split <;> rfl

theorem State.shlReg_withRate (x y : Nibble) : (s.withRate hz).shlReg x y = (s.shlReg x y).withRate hz := by
  simp only [State.shlReg, State.withRate_quirkShift]
  split <;> rfl

theorem execRet_withRate : execRet (s.withRate hz) = outcomeWithRate hz (execRet s) := by
  rw [execRet, execRet, State.pop_withRate]
  cases s.pop with
  | none => rfl
  | some p => exact congrArg Host.Outcome.next (p.2.setPC_withRate hz _)

theorem execCall_withRate (nnn : Addr) : execCall nnn (s.withRate hz) = outcomeWithRate hz (execCall nnn s) := by
  rw [execCall, execCall, State.withRate_pc, State.push_withRate]
  cases s.push s.pc with
  | none => rfl
  | some t => exact congrArg Host.Outcome.next (t.setPC_withRate hz _)

theorem execDrw_withRate (x y n : Nibble) : execDrw x y n (s.withRate hz) = outcomeWithRate hz (execDrw x y n s) := by
  rw [execDrw, State.drawSprite_withRate, orAbort_withRate, State.guardAlias_withRate, execDrw]

theorem execRnd_withRate (x : Nibble) (nn : Byte) :
    execRnd x nn (s.withRate hz) = outcomeWithRate hz (execRnd x nn s) := by
  rw [execRnd, State.drawRandom_withRate]
  rfl

theorem execSkp_withRate (x : Nibble) : execSkp x (s.withRate hz) = outcomeWithRate hz (execSkp x s) := by
  rw [execSkp, execSkp, State.pollKeys_withRate, State.readV_withRate]
  split
  · rfl
  · exact congrArg Host.Outcome.next (s.pollKeys.2.skipIf_withRate hz _)

theorem execSknp_withRate (x : Nibble) : execSknp x (s.withRate hz) = outcomeWithRate hz (execSknp x s) := by
  rw [execSknp, execSknp, State.pollKeys_withRate, State.readV_withRate]
  split
  · rfl
  · exact congrArg Host.Outcome.next (s.pollKeys.2.skipIf_withRate hz _)

theorem execLdVxK_withRate (x : Nibble) : execLdVxK x (s.withRate hz) = outcomeWithRate hz (execLdVxK x s) := by
  rw [execLdVxK, execLdVxK, State.pollKeys_withRate]
  refine congrArg Host.Outcome.next ?_
  dsimp only [Prod.map, id]
  cases lowestKey s.pollKeys.1 with
  | some k => rfl
  | none => exact s.pollKeys.2.setPC_withRate hz _

theorem execLdB_withRate (x : Nibble) : execLdB x (s.withRate hz) = outcomeWithRate hz (execLdB x s) := by
  rw [execLdB, State.memWriteList_withRate, orAbort_withRate]
  rfl

theorem execStoreRegs_withRate (x : Nibble) :
    execStoreRegs x (s.withRate hz) = outcomeWithRate hz (execStoreRegs x s) := by
  rw [execStoreRegs, State.memWriteList_withRate, map_bumpI_withRate, orAbort_withRate]
  rfl

theorem execLoadRegs_withRate (x : Nibble) :
    execLoadRegs x (s.withRate hz) = outcomeWithRate hz (execLoadRegs x s) := by
  rw [execLoadRegs, State.loadRegsFrom_withRate, map_bumpI_withRate, orAbort_withRate]
  rfl

/-! ### exec, the cycle and the step -/

/-- No instruction reads the tick rate. -/
theorem exec_withRate (i : Instr) : exec i (s.withRate hz) = outcomeWithRate hz (exec i s) := by
  cases i with
  | cls | unimpl _ | ldI _ | addI _ | ldF _ => rfl
  | ldByte _ _ | addByte _ _ | ldReg _ _ | orReg _ _ | andReg _ _ | xorReg _ _ => rfl
  | ldVxDT _ | ldDTVx _ | ldSTVx _ => rfl
  | jp _ | jpV0 _ => exact congrArg Host.Outcome.next (s.setPC_withRate hz _)
  | seByte _ _ | sneByte _ _ | seReg _ _ | sneReg _ _ =>
    exact congrArg Host.Outcome.next (s.skipIf_withRate hz _)
  | addReg x y => exact s.guardAlias_withRate hz _ (s.addReg x y)
  | subReg x y => exact s.guardAlias_withRate hz _ (s.subReg x y)
  | subn x y => exact s.guardAlias_withRate hz _ (s.subnReg x y)
  | shr x y => rw [exec, execShr, State.shrReg_withRate]; exact s.guardAlias_withRate hz _ _
  | shl x y => rw [exec, execShl, State.shlReg_withRate]; exact s.guardAlias_withRate hz _ _
  | ret => exact execRet_withRate hz s
  | call nnn => exact execCall_withRate hz s nnn
  | drw x y n => exact execDrw_withRate hz s x y n
  | rnd x nn => exact execRnd_withRate hz s x nn
  | skp x => exact execSkp_withRate hz s x
  | sknp x => exact execSknp_withRate hz s x
  | ldVxK x => exact execLdVxK_withRate hz s x
  | ldB x => exact execLdB_withRate hz s x
  | storeRegs x => exact execStoreRegs_withRate hz s x
  | loadRegs x => exact execLoadRegs_withRate hz s x

theorem State.fetch_withRate :
    (s.withRate hz).fetch = s.fetch.map (Prod.map id (State.withRate hz)) := by
  simp only [State.fetch, State.memRead_withRate, State.withRate_pc, State.trySetPC_withRate]
  cases s.memRead s.pc with
  | error f => rfl
  | ok hi =>
    cases s.memRead (s.pc + 1) with
    | error f => rfl
    | ok lo => cases s.trySetPC (s.pc + 2) <;> rfl

theorem State.cycle_withRate : (s.withRate hz).cycle = outcomeWithRate hz s.cycle := by
  rw [State.cycle, State.cycle, State.fetch_withRate]
  cases s.fetch with
  | error f => rfl
  | ok p => exact exec_withRate hz p.2 _

theorem State.tick_withRate (k : Timer) : (s.withRate hz).tick k = (s.tick k).withRate hz := by
  simp only [State.tick, State.timer_withRate, State.report_withRate, State.writeTimer_withRate]
  split <;> rfl

theorem State.hostOp_withRate (op : HostOp) :
    (s.withRate hz).hostOp op = outcomeWithRate hz (s.hostOp op) := by
  cases op with
  | cycle => exact s.cycle_withRate hz
  | tickDelay => exact congrArg Host.Outcome.next (s.tick_withRate hz .delay)
  | tickSound => exact congrArg Host.Outcome.next (s.tick_withRate hz .sound)
  | shutdown => rfl

/-- With another tick rate the step answers the same, but for the rate (R9). -/
theorem step_withRate : step (s.withRate hz) = outcomeWithRate hz (step s) := by
  have hop : (s.withRate hz).nextOp = outcomeWithRate hz s.nextOp := by
    rw [State.nextOp, State.takeOp_withRate]
    exact s.takeOp.2.hostOp_withRate hz _
  rw [step, step, State.guardedOp, State.guardedOp, hop, State.withRate_status, State.withRate_ended]
  cases s.status with
  | aborted f => rfl
  | running => cases s.ended <;> rfl

end WithRate

end Sys2Proof.Machine

/-! # The statements of the scope, settled -/

namespace Sys2Proof.Machine

/-- Settles O5: the fetch of the cycle that the host takes aborts, with what the host supplies taken. -/
theorem fetchAtTheEndOfMemoryAborts : Obligations.FetchAtTheEndOfMemoryAborts := by
  intro s t hlive hnext hpc hadv
  rw [step_of_cycleNext hlive hnext]
  have hframe := hnext.frame
  have hpc' : t.pc = s.pc := by rw [hframe]
  have hcfg : t.cfg = s.cfg := by rw [hframe]
  rw [← hcfg, ← hpc'] at hpc hadv
  rw [State.cycle_of_advance_not_ok hpc hadv, hpc']
  exact abortsWith_raiseFatal t _

/-- Settles O48, by what a step can be: a cycle, a tick or the shutdown. -/
theorem noStepChangesTheConfiguration : Obligations.NoStepChangesTheConfiguration :=
  fun _ _ h => step_cfg h

/-- Settles O58: the step commutes with a change of the rate, whatever it answers. -/
theorem tickRateInfluencesNoStep : Obligations.TickRateInfluencesNoStep := by
  intro s hz
  have hstep := step_withRate hz s
  refine ⟨fun t h => ?_, fun f h => ?_, fun r h => ?_⟩ <;> rw [h] at hstep <;> exact hstep

/-- Settles O57: the reset session is built from `Config`'s defaults (R9, I1). -/
theorem defaultParametersAreThoseOfRule9 : Obligations.DefaultParametersAreThoseOfRule9 := rfl

end Sys2Proof.Machine

/-! # State (10_state.md R30 to R43): every step keeps the invariant, and who writes which part of the state

Lemmas first, each about one operation of the model; the statements of the family are settled at the end. -/

namespace Sys2Proof.Machine

/-! ## The invariant and an abort (R402) -/

/-- Open contents cut to the session have the sizes of its tables. -/
theorem shaped_fittedTo (cfg : Config) (r : Config.Residue) :
    (fittedTo cfg r).v.length = cfg.numV ∧ (fittedTo cfg r).stack.length = cfg.stackDepth ∧
    (fittedTo cfg r).sp ≤ cfg.stackDepth ∧ fbShaped cfg (fittedTo cfg r).fb := by
  have hsp : (fittedTo cfg r).sp ≤ cfg.stackDepth := Nat.le_of_lt_succ (Nat.mod_lt _ (Nat.succ_pos _))
  have hfb : fbShaped cfg (fittedTo cfg r).fb := ⟨by simp [fittedTo], by simp [fittedTo]⟩
  exact ⟨by simp [fittedTo], by simp [fittedTo], hsp, hfb⟩

/-- An abort leaves contents of the session's sizes. -/
theorem State.shaped_raiseFatal (s : State) (f : Fatal) : (s.raiseFatal f).Shaped :=
  have ⟨hv, hstack, hsp, hfb⟩ := shaped_fittedTo s.cfg (Config.afterAbort s.free)
  ⟨hv, hstack, hsp, hfb⟩

/-- An abort has the invariant wherever the parameters make sense: it is not Running, so nothing is asked of pc and
of the stack entries. -/
theorem State.inv_raiseFatal {s : State} (hwf : s.cfg.Wf) (f : Fatal) : (s.raiseFatal f).Inv where
  cfgWf := hwf
  shaped := s.shaped_raiseFatal f
  widths := s.inWidths_raiseFatal f
  memWf := Memory.wf_fill _ _
  memWithin := Memory.within_fill _ _
  pcBound h := by cases h
  liveEntries h := by cases h

theorem AbortOf.inv {s t : State} (h : AbortOf s t) (hwf : s.cfg.Wf) : t.Inv := by
  obtain ⟨f, u, rfl, _, hcfg, _⟩ := h
  exact State.inv_raiseFatal (hcfg ▸ hwf) f

/-! ## The invariant and the operations of the host -/

section

variable {s : State}

/-- The invariant reads neither the log nor whether the session has ended nor what the host does next, so it stands
whatever they are. -/
theorem State.Inv.withUnread (h : s.Inv) (reports : List Report) (ended : Bool) (schedule : List HostOp)
    (free : Nat) :
    State.Inv { s with reports := reports, ended := ended, schedule := schedule, free := free } :=
  { h with shaped := { h.shaped with }, widths := { h.widths with } }

theorem State.Inv.takeOp (h : s.Inv) : s.takeOp.2.Inv := by
  rw [s.takeOp_frame]
  exact h.withUnread _ _ _ _

theorem State.Inv.shutdown (h : s.Inv) : s.shutdown.Inv := h.withUnread _ _ _ _

theorem State.Inv.writeTimer (h : s.Inv) (k : Timer) (n : Nat) : (s.writeTimer k n).Inv := by
  have hwidths := h.widths.writeTimer k n
  cases k with
  | delay => exact { h with shaped := { h.shaped with }, widths := hwidths }
  | sound => exact { h with shaped := { h.shaped with }, widths := hwidths }

theorem State.Inv.tick (h : s.Inv) (k : Timer) : (s.tick k).Inv := by
  rcases s.tick_cases k with ⟨_, e⟩ | ⟨_, e⟩ <;> rw [e]
  · exact h.withUnread _ _ _ _
  · exact h.writeTimer k _

/-! ## The invariant and an instruction -/

/-- The advance of the fetch (R34, R100). -/
theorem State.Inv.putPc (h : s.Inv) {n : Nat} (hn : s.cfg.pcOk n) : (s.putPc n).Inv := by
  rw [State.putPc_of_ok h.cfgWf hn]
  exact { h with
    shaped := { h.shaped with }
    widths := { h.widths with pc := h.cfgWf.pcOk_lt hn }
    pcBound := fun _ => hn }

end

section

variable {i : Instr} {s t : State}

/-- An instruction keeps the tables' sizes: a push writes entry SP, which the stack has. -/
theorem Effect.shaped (he : Effect i s t) (hs : s.Inv) : t.Shaped := by
  obtain ⟨hv, hstack, hsp, hfb⟩ := hs.shaped
  have h16 : 16 ≤ s.v.length := hv ▸ hs.cfgWf.numV
  have ⟨hstack', hsp'⟩ : t.stack.length = s.cfg.stackDepth ∧ t.sp ≤ s.cfg.stackDepth := by
    rcases he.stack with ⟨e, hle⟩ | ⟨hlt, e, hnew⟩
    · exact ⟨e ▸ hstack, hle.trans hsp⟩
    · rw [e, length_tableSet_of_lt _ _ _ _ (hstack ▸ hlt), hnew]
      exact ⟨hstack, hlt⟩
  rw [← he.cfg] at hv hstack' hsp'
  exact ⟨(he.vLength h16).trans hv, hstack', hsp', he.cfg ▸ he.fbShape hfb⟩

/-- An instruction leaves pc, or SetPC has accepted the value it wrote (R15, R36). -/
theorem Effect.pc_ok (he : Effect i s t) (hwf : s.cfg.Wf) (hpc : s.cfg.pcOk s.pc) : s.cfg.pcOk t.pc := by
  rcases he.pcOk with e | ⟨v, hv, e⟩ <;> rw [e]
  · exact hpc
  · rwa [keepBits_of_lt (hwf.pcOk_lt hv)]

/-- The one live entry that an instruction can add is its pc, pushed by CALL (R202). -/
theorem Effect.liveEntries_ok (he : Effect i s t) (hwf : s.cfg.Wf) (hpc : s.cfg.pcOk s.pc)
    (hs : s.liveEntriesOk) : t.liveEntriesOk := by
  intro k hk
  rw [he.cfg]
  rcases he.stack with ⟨e, hle⟩ | ⟨_, e, hsp⟩ <;> rw [State.entry, e]
  · exact hs k (hk.trans_le hle)
  · rw [getD_tableSet]
    split
    · rwa [keepBits_of_lt (hwf.pcOk_lt_stack hpc)]
    · exact hs k (by omega)

/-- An instruction keeps memory's canonical form, inside the address space. -/
theorem Effect.mem_ok (he : Effect i s t) (hs : s.Inv) :
    Memory.wf t.mem = true ∧ Memory.within s.cfg.memSize t.mem = true := by
  rcases he.mem with e | ⟨_, bs, hbs, e⟩ <;> rw [e]
  · exact ⟨hs.memWf, hs.memWithin⟩
  · exact ⟨Memory.wf_writeBytes _ _ hs.memWf, Memory.within_writeBytes _ _ hs.memWithin hbs⟩

theorem Effect.inv (he : Effect i s t) (hs : s.Inv) : t.Inv where
  cfgWf := he.cfg ▸ hs.cfgWf
  shaped := he.shaped hs
  widths := he.widths hs.widths
  memWf := (he.mem_ok hs).1
  memWithin := he.cfg ▸ (he.mem_ok hs).2
  pcBound hr := he.cfg ▸ he.pc_ok hs.cfgWf (hs.pcBound (he.status ▸ hr))
  liveEntries hr :=
    have hr := he.status ▸ hr
    he.liveEntries_ok hs.cfgWf (hs.pcBound hr) (hs.liveEntries hr)

theorem exec_inv (h : exec i s = .next t) (hs : s.Inv) : t.Inv := by
  rcases exec_next h with he | ha
  · exact he.inv hs
  · exact ha.inv hs.cfgWf

theorem cycle_inv (h : s.cycle = .next t) (hs : s.Inv) : t.Inv := by
  rcases cycle_next h with ⟨f, _, rfl⟩ | ⟨hadv, he⟩
  · exact State.inv_raiseFatal hs.cfgWf f
  · exact exec_inv he (hs.putPc hadv)

theorem step_inv (h : step s = .next t) (hs : s.Inv) : t.Inv := by
  obtain ⟨_, hc | ⟨k, rfl⟩ | rfl⟩ := step_next h
  · exact cycle_inv hc hs.takeOp
  · exact hs.takeOp.tick k
  · exact hs.takeOp.shutdown

/-! ## A running state after an instruction or a cycle -/

/-- An instruction after which the session runs has not aborted, so its effect is all it has done. -/
theorem exec_running (h : exec i s = .next t) (hr : t.status = .running) : Effect i s t :=
  (exec_next h).resolve_right fun ha => ha.not_running hr

/-- A cycle after which the session runs has run the decoded instruction, with pc past its word (R100). -/
theorem cycle_running (h : s.cycle = .next t) (hr : t.status = .running) :
    Effect (decode s.cfg.extEF (s.byteAt s.pc ++ s.byteAt (s.pc + 1))) (s.putPc (s.pc + 2)) t := by
  rcases cycle_next h with ⟨f, _, rfl⟩ | ⟨_, he⟩
  · cases hr
  · exact exec_running he hr

end

/-! ## The minimum core (R42, R72, R360) -/

/-- An instruction of the minimum core: well-formed without the extension, or UNIMPL, which only reports,
whatever its word. -/
def Instr.isCore (i : Instr) : Prop := Instr.wf false i = true ∨ ∃ w, i = .unimpl w

theorem decodeFamily0_isCore (w : Word) : Instr.isCore (decodeFamily0 w) := by
  unfold decodeFamily0
  split <;> exact .inl rfl

/-- Family 0x8 gives its nine operations, or UNIMPL in a hole (R107). -/
theorem decodeFamily8_isCore (w : Word) : Instr.isCore (decodeFamily8 w) := by
  unfold decodeFamily8
  split
  case h_10 => exact .inr ⟨w, rfl⟩
  all_goals exact .inl rfl

/-- Without the extension, families 0xE and 0xF are UNIMPL, and every other family is of the core (R104, R360). -/
theorem decode_false_isCore (w : Word) : Instr.isCore (decode false w) := by
  unfold decode
  split
  case h_1 => exact decodeFamily0_isCore w
  case h_9 => exact decodeFamily8_isCore w
  case h_15 => exact .inr ⟨w, rfl⟩
  case h_16 => exact .inr ⟨w, rfl⟩
  all_goals exact .inl rfl

section

variable {i : Instr} {s t : State}

/-- An instruction of the minimum core writes no memory and no timer, and polls no key: those that do are all of the
extension. -/
theorem Effect.core_frame (he : Effect i s t) (hi : Instr.isCore i) :
    t.mem = s.mem ∧ t.dt = s.dt ∧ t.st = s.st ∧ t.keyPolls = s.keyPolls := by
  refine ⟨he.mem.resolve_right ?_, he.dt.resolve_right ?_, he.st.resolve_right ?_, he.keys.resolve_right ?_⟩
  · rintro ⟨⟨x, rfl | rfl⟩, _⟩ <;> simp [Instr.isCore, Instr.wf] at hi
  · rintro ⟨x, rfl⟩; simp [Instr.isCore, Instr.wf] at hi
  · rintro ⟨x, rfl⟩; simp [Instr.isCore, Instr.wf] at hi
  · rintro ⟨x, rfl | rfl | rfl⟩ <;> simp [Instr.isCore, Instr.wf] at hi

/-- A cycle without the extension writes no memory and no timer, and polls no key. -/
theorem cycle_core_frame (hext : s.cfg.extEF = false) (h : s.cycle = .next t) (hr : t.status = .running) :
    t.mem = s.mem ∧ t.dt = s.dt ∧ t.st = s.st ∧ t.keyPolls = s.keyPolls := by
  have he := cycle_running h hr
  rw [hext] at he
  exact he.core_frame (decode_false_isCore _)

end

@[simp] theorem State.takeOp_mem (s : State) : s.takeOp.2.mem = s.mem := by rw [s.takeOp_frame]

@[simp] theorem State.tick_mem (k : Timer) (s : State) : (s.tick k).mem = s.mem := by
  rcases s.tick_cases k with ⟨_, e⟩ | ⟨_, e⟩ <;> rw [e]
  · rfl
  · cases k <;> rfl

/-- A step without the extension that does not abort leaves memory as it is (R72). -/
theorem step_core_mem {s t : State} (hext : s.cfg.extEF = false) (h : step s = .next t)
    (hr : t.status = .running) : t.mem = s.mem := by
  obtain ⟨_, hc | ⟨k, rfl⟩ | rfl⟩ := step_next h
  · obtain ⟨hmem, _⟩ := cycle_core_frame (by rwa [State.takeOp_cfg]) hc hr
    rw [hmem, State.takeOp_mem]
  · rw [State.tick_mem, State.takeOp_mem]
  · rw [State.shutdown_mem, State.takeOp_mem]

/-- Memory that is the same reads the same. -/
theorem State.sameMemory_of_mem {s t : State} (h : t.mem = s.mem) : s.sameMemory t := by
  intro a
  rw [State.byteAt, State.byteAt, h]

/-! ## The statements of the family, settled -/

/-- Settles O44: a step is a cycle, a tick or the shutdown, and each keeps the invariant, aborts included. -/
theorem stepKeepsTheInvariant : Obligations.StepKeepsTheInvariant :=
  fun _ _ hs h => step_inv h hs

/-- Settles O49, by the register clause of what an instruction that does not abort can do. -/
theorem onlyTheListedRegistersAreWritten : Obligations.OnlyTheListedRegistersAreWritten :=
  fun _ _ _ r h hr hv => (exec_running h hr).v r hv

/-- Settles O50, by the pc clause of what an instruction that does not abort can do. -/
theorem onlyControlFlowWritesPc : Obligations.OnlyControlFlowWritesPc :=
  fun _ _ _ h hr hpc => (exec_running h hr).pcSame hpc

/-- Settles O51, by the framebuffer, stack and index clauses of what an instruction that does not abort can do. -/
theorem framebufferStackAndIndexHaveTheirOwnWriters : Obligations.FramebufferStackAndIndexHaveTheirOwnWriters := by
  intro i s t h hr
  have he := exec_running h hr
  refine ⟨he.fb.resolve_left, fun hne => he.stackWriter.resolve_left ?_, he.index.resolve_left⟩
  rintro ⟨hstack, hsp⟩
  exact hne.elim (· hstack) (· hsp)

/-- Settles O52: the decoder without the extension gives no instruction that writes memory or a timer or polls a
key. -/
theorem minimumCoreWritesNoMemoryAndNoTimer : Obligations.MinimumCoreWritesNoMemoryAndNoTimer := by
  intro s t hext hr
  refine ⟨fun h => State.sameMemory_of_mem (step_core_mem hext h hr), fun h => ?_⟩
  obtain ⟨_, hframe⟩ := cycle_core_frame hext h hr
  exact hframe

end Sys2Proof.Machine

/-! # Memory (20_memory.md R70, R84): the canonical form is unique, and a stored word is the next one fetched

Lemmas first, each about one definition of the model; the statements of the family are settled at the end. -/

namespace Sys2Proof.Machine

/-! ## The canonical form is unique (R70) -/

/-- The canonical form of a listed cell and the cells after it. -/
theorem Memory.wfFrom_cons {lo a : Nat} {v : Byte} {rest : Memory} :
    Memory.wfFrom lo ((a, v) :: rest) = true ↔
      lo ≤ a ∧ v ≠ Memory.unlisted a ∧ Memory.wfFrom (a + 1) rest = true := by
  simp [Memory.wfFrom, and_assoc]

@[simp] theorem Memory.read_cons_same (a : Nat) (v : Byte) (rest : Memory) :
    Memory.read ((a, v) :: rest) a = v := if_pos rfl

theorem Memory.read_cons_other {a c : Nat} (v : Byte) (rest : Memory) (h : c ≠ a) :
    Memory.read ((a, v) :: rest) c = rest.read c := if_neg h

/-- Below the cells of a canonical memory every address is unlisted. -/
theorem Memory.read_below {lo c : Nat} {m : Memory} (h : Memory.wfFrom lo m = true) (hc : c < lo) :
    m.read c = Memory.unlisted c := by
  induction m generalizing lo with
  | nil => rfl
  | cons cell rest ih =>
    obtain ⟨hlo, _, hrest⟩ := Memory.wfFrom_cons.mp h
    rw [Memory.read_cons_other _ _ (by omega)]
    exact ih hrest (by omega)

/-- The first cell of a canonical memory shows in a read, so a canonical memory that reads the same there begins
no later. -/
theorem Memory.le_head_of_read_eq {lo lo' a : Nat} {v : Byte} {rest n : Memory}
    (hm : Memory.wfFrom lo ((a, v) :: rest) = true) (hn : Memory.wfFrom lo' n = true)
    (hread : Memory.read ((a, v) :: rest) a = n.read a) : lo' ≤ a := by
  by_contra hlt
  obtain ⟨_, hv, _⟩ := Memory.wfFrom_cons.mp hm
  rw [Memory.read_cons_same, Memory.read_below hn (by omega)] at hread
  exact hv hread

/-- A canonical memory that reads as unlisted everywhere lists nothing. -/
theorem Memory.eq_nil_of_read_unlisted {lo : Nat} {m : Memory} (h : Memory.wfFrom lo m = true)
    (hread : ∀ c, m.read c = Memory.unlisted c) : m = [] := by
  cases m with
  | nil => rfl
  | cons cell rest =>
    obtain ⟨_, hv, _⟩ := Memory.wfFrom_cons.mp h
    exact absurd ((Memory.read_cons_same _ _ _).symm.trans (hread cell.1)) hv

/-- Canonical memories that read alike are equal. Their first cells stand at the same address, for neither can
begin before the other, and the cells after them read alike again. -/
theorem Memory.eq_of_read_eq {lo lo' : Nat} {m n : Memory} (hm : Memory.wfFrom lo m = true)
    (hn : Memory.wfFrom lo' n = true) (hread : ∀ c, m.read c = n.read c) : m = n := by
  induction m generalizing lo lo' n with
  | nil => exact (Memory.eq_nil_of_read_unlisted hn fun c => (hread c).symm).symm
  | cons cell m ih =>
    obtain ⟨a, v⟩ := cell
    cases n with
    | nil => exact Memory.eq_nil_of_read_unlisted hm hread
    | cons cell' n =>
      obtain ⟨b, u⟩ := cell'
      obtain ⟨_, hv, hm'⟩ := Memory.wfFrom_cons.mp hm
      obtain ⟨_, hu, hn'⟩ := Memory.wfFrom_cons.mp hn
      have hba : b ≤ a := Memory.le_head_of_read_eq hm (Memory.wfFrom_cons.mpr ⟨le_rfl, hu, hn'⟩) (hread a)
      have hab : a ≤ b := Memory.le_head_of_read_eq hn (Memory.wfFrom_cons.mpr ⟨le_rfl, hv, hm'⟩) (hread b).symm
      obtain rfl : a = b := le_antisymm hab hba
      obtain rfl : v = u := by simpa using hread a
      refine congrArg _ (ih hm' hn' fun c => ?_)
      rcases eq_or_ne c a with rfl | hc
      · rw [Memory.read_below hm' c.lt_succ_self, Memory.read_below hn' c.lt_succ_self]
      · simpa only [Memory.read_cons_other _ _ hc] using hread c

/-! ## A stored block is read back (R370), and fetched (R84) -/

/-- Moving I past a block changes I alone. -/
theorem State.bumpI_frame (x : Nibble) (s : State) : s.bumpI x = { s with i := (s.bumpI x).i } := by
  rcases s.bumpI_cases x with ⟨_, h⟩ | ⟨_, h⟩
  · rw [h]
  · rw [h]
    rfl

theorem State.firstRegs_getElem (s : State) (x : Nibble) {k : Nat} (h : k < (s.firstRegs x).length) :
    (s.firstRegs x)[k] = u8 (s.readV (BitVec.ofNat 4 k)) := by
  simp [State.firstRegs]

/-- A store whose block is inside memory writes the block and, under Increment, I; nothing else (R370). -/
theorem exec_storeRegs_frame {s t : State} {x : Nibble} (hblock : s.i + x.toNat < s.cfg.memSize)
    (h : exec (.storeRegs x) s = .next t) :
    t = { s with mem := s.mem.writeBytes s.i (s.firstRegs x), i := t.i } := by
  have hlen := s.firstRegs_length x
  have hwrite := s.memWriteList_ok s.i (s.firstRegs x) (by omega)
  have hrun : exec (.storeRegs x) s =
      .next (State.bumpI x { s with mem := s.mem.writeBytes s.i (s.firstRegs x) }) := by
    show execStoreRegs x s = _
    rw [execStoreRegs, hwrite]
    rfl
  obtain rfl := Host.Outcome.next.inj (hrun.symm.trans h)
  exact State.bumpI_frame x _

/-- After such a store each byte of the block reads as the low byte of its register (R370). -/
theorem exec_storeRegs_byteAt {s t : State} {x : Nibble} {k : Nat} (hwf : Memory.wf s.mem = true)
    (hblock : s.i + x.toNat < s.cfg.memSize) (h : exec (.storeRegs x) s = .next t) (hk : k ≤ x.toNat) :
    t.byteAt (s.i + k) = u8 (s.readV (BitVec.ofNat 4 k)) := by
  have hlt : k < (s.firstRegs x).length := by
    rw [s.firstRegs_length]
    omega
  rw [exec_storeRegs_frame hblock h]
  exact (Memory.read_writeBytes_inside s.i _ hwf hlt).trans (s.firstRegs_getElem x hlt)

/-- A cycle whose advance stays in range runs the big-endian word at pc, with pc past it (R100). -/
theorem State.cycle_of_advance_ok {s : State} (hwf : s.cfg.Wf) (hadv : s.cfg.pcOk (s.pc + 2)) :
    s.cycle = exec (decode s.cfg.extEF (s.byteAt s.pc ++ s.byteAt (s.pc + 1))) { s with pc := s.pc + 2 } := by
  have hpc : s.cfg.pcOk s.pc := by
    unfold Config.pcOk at hadv ⊢
    omega
  rcases s.fetch_cases hpc with ⟨_, e⟩ | ⟨hbad, _⟩
  · rw [State.cycle, e, State.putPc_of_ok hwf hadv]
  · exact absurd hadv hbad

end Sys2Proof.Machine

/-! # The statements of memory, settled -/

namespace Sys2Proof.Machine

/-- Settles O46, by induction on the listed cells. -/
theorem canonicalMemoriesAreEqualWhenTheyReadAlike : Obligations.CanonicalMemoriesAreEqualWhenTheyReadAlike :=
  fun _ _ hm hn hread => Memory.eq_of_read_eq hm hn hread

/-- Settles O55: the store leaves pc and the session as they are, so the next cycle fetches at pc, where the two
bytes stored are those of V0 and V1. -/
theorem storedWordIsFetchedNext : Obligations.StoredWordIsFetchedNext := by
  intro s t u x w hinv hlive hadv hi hx hw hblock hexec hnext
  have hstore := exec_storeRegs_frame hblock hexec
  have hhigh : t.byteAt s.pc = u8 (s.readV 0#4) :=
    hi ▸ exec_storeRegs_byteAt hinv.memWf hblock hexec (Nat.zero_le _)
  have hlow : t.byteAt (s.pc + 1) = u8 (s.readV 1#4) :=
    hi ▸ exec_storeRegs_byteAt hinv.memWf hblock hexec hx
  have htlive : t.live := by rw [hstore]; exact hlive
  have hcfg : u.cfg = s.cfg := by rw [hnext.frame, hstore]
  have hpc : u.pc = s.pc := by rw [hnext.frame, hstore]
  have hbyte (a : Nat) : u.byteAt a = t.byteAt a := by rw [hnext.frame]; rfl
  rw [step_of_cycleNext htlive hnext, State.cycle_of_advance_ok (hcfg ▸ hinv.cfgWf) (by rwa [hcfg, hpc]),
    hcfg, hpc, hbyte, hbyte, hhigh, hlow, hw]
  rfl

end Sys2Proof.Machine

/-! # Encoding (30_encoding.md R100 to R109, 44_ext_EF.md R360): decoding an encoded instruction, the words of R107,
and the word that a step fetches

Lemmas first, each about one definition of the model; the statements of the family are settled at the end. -/

namespace Sys2Proof

/-! ## The words of R107 and R360 by their fields -/

/-- The mask that isAluHole looks at leaves F and N. -/
theorem and_F00F_toNat (w : Word) : (w &&& 0xF00F#16).toNat = (fieldF w).toNat * 4096 + (fieldN w).toNat := by
  conv_lhs => rw [← encFXYN_fields w, and_F00F, encFXYN_toNat]
  simp

/-- The mask that isExtWord looks at leaves F and NN. -/
theorem and_F0FF_toNat (w : Word) : (w &&& 0xF0FF#16).toNat = (fieldF w).toNat * 4096 + (fieldNN w).toNat := by
  have hx : BitVec.toNat (0 : Nibble) = 0 := rfl
  conv_lhs => rw [← encFXYN_fields w, and_F0FF, encFXYN_toNat, hx]
  rw [fieldY_toNat, fieldN_toNat, fieldNN_toNat]
  omega

/-- The mask that isUnimplWord looks at leaves the upper three bits of F. -/
theorem and_E000_toNat (w : Word) : (w &&& 0xE000#16).toNat = (fieldF w).toNat / 2 * 8192 := by
  have hf : ∀ f : Nibble, (f &&& 0xE#4).toNat = f.toNat / 2 * 2 := by decide
  have hx : BitVec.toNat (0 : Nibble) = 0 := rfl
  conv_lhs => rw [← encFXYN_fields w, and_E000, encFXYN_toNat, hf, hx]
  omega

/-- The holes of family 0x8 (R107). -/
theorem isAluHole_iff (w : Word) :
    isAluHole w = true ↔ (fieldF w).toNat = 8 ∧ (fieldN w).toNat ∈ [8, 9, 10, 11, 12, 13, 15] := by
  have hn := (fieldN w).isLt
  simp only [isAluHole, List.contains_eq_mem, decide_eq_true_eq, List.mem_cons, List.not_mem_nil, or_false,
    ← BitVec.toNat_inj, and_F00F_toNat, BitVec.toNat_ofNat]
  omega

/-- The words of the extension (R360). -/
theorem isExtWord_iff (w : Word) :
    isExtWord w = true ↔ ((fieldF w).toNat = 14 ∧ (fieldNN w).toNat ∈ [0x9E, 0xA1]) ∨
      ((fieldF w).toNat = 15 ∧ (fieldNN w).toNat ∈ [0x07, 0x0A, 0x15, 0x18, 0x1E, 0x29, 0x33, 0x55, 0x65]) := by
  have hnn := (fieldNN w).isLt
  simp only [isExtWord, List.contains_eq_mem, decide_eq_true_eq, List.mem_cons, List.not_mem_nil, or_false,
    ← BitVec.toNat_inj, and_F0FF_toNat, BitVec.toNat_ofNat]
  omega

/-- The unimplemented-opcode space: the holes of family 0x8, and families 0xE and 0xF but for the words of an
extension that is on (R107). -/
theorem isUnimplWord_iff (ext : Bool) (w : Word) :
    isUnimplWord ext w = true ↔
      isAluHole w = true ∨ (14 ≤ (fieldF w).toNat ∧ (ext = true → isExtWord w = false)) := by
  have hf := (fieldF w).isLt
  have hmask : w &&& 0xE000#16 = 0xE000#16 ↔ 14 ≤ (fieldF w).toNat := by
    rw [← BitVec.toNat_inj, and_E000_toNat, BitVec.toNat_ofNat]
    omega
  simp only [isUnimplWord, Bool.or_eq_true, Bool.and_eq_true, beq_iff_eq, hmask, Bool.not_eq_true',
    Bool.and_eq_false_imp]

/-! ## What a word decodes to (R104, R107, R360) -/

/-- The instruction is one that the word may decode to: UNIMPL of a word of R107, and a well-formed instruction of any
other word. -/
def Instr.fitsWord (ext : Bool) (w : Word) (i : Instr) : Prop :=
  (isUnimplWord ext w = true ∧ i = .unimpl w) ∨ (isUnimplWord ext w = false ∧ i.wf ext = true)

section

variable {ext : Bool} {w : Word} {i : Instr}

theorem Instr.fitsWord_unimpl (h : isUnimplWord ext w = true) : (Instr.unimpl w).fitsWord ext w := .inl ⟨h, rfl⟩

theorem Instr.fitsWord_of_wf (hi : i.wf ext = true) (h : ¬isUnimplWord ext w = true) : i.fitsWord ext w :=
  .inr ⟨Bool.eq_false_of_not_eq_true h, hi⟩

/-- Families 0x0 to 0x7 and 0x9 to 0xD lie outside the space of R107. -/
theorem Instr.fitsWord_of_family (hi : i.wf ext = true) (hf : (fieldF w).toNat < 14) (h8 : (fieldF w).toNat ≠ 8) :
    i.fitsWord ext w := by
  refine Instr.fitsWord_of_wf hi fun h => ?_
  rcases (isUnimplWord_iff ext w).mp h with hole | ⟨hf', _⟩
  · exact h8 ((isAluHole_iff w).mp hole).1
  · omega

theorem decodeFamily0_fitsWord (hf : (fieldF w).toNat = 0) : (decodeFamily0 w).fitsWord ext w := by
  have hwf : (decodeFamily0 w).wf ext = true := by
    unfold decodeFamily0
    split <;> rfl
  exact Instr.fitsWord_of_family hwf (by omega) (by omega)

/-- Family 0x8 gives its nine operations, or UNIMPL in a hole. -/
theorem decodeFamily8_fitsWord (hf : (fieldF w).toNat = 8) : (decodeFamily8 w).fitsWord ext w := by
  have hspace : isUnimplWord ext w = true ↔ (fieldN w).toNat ∈ [8, 9, 10, 11, 12, 13, 15] := by
    simp [isUnimplWord_iff, isAluHole_iff, hf]
  have hn := (fieldN w).isLt
  unfold decodeFamily8
  split
  case h_10 =>
    refine Instr.fitsWord_unimpl (hspace.mpr ?_)
    simp only [imp_false, List.mem_cons, List.not_mem_nil, or_false] at *
    omega
  all_goals exact Instr.fitsWord_of_wf rfl (by simp [*])

/-- Family 0xE with the extension on gives its two operations, or UNIMPL of any other word. -/
theorem decodeFamilyE_fitsWord (hf : (fieldF w).toNat = 14) : (decodeFamilyE w).fitsWord true w := by
  have hspace : isUnimplWord true w = true ↔ (fieldNN w).toNat ∉ [0x9E, 0xA1] := by
    simp [isUnimplWord_iff, isAluHole_iff, ← Bool.not_eq_true, isExtWord_iff, hf]
  unfold decodeFamilyE
  split
  case h_3 h9E hA1 => exact Instr.fitsWord_unimpl (hspace.mpr (by simpa using ⟨h9E, hA1⟩))
  all_goals exact Instr.fitsWord_of_wf rfl (by simp [*])

/-- Family 0xF with the extension on gives its nine operations, or UNIMPL of any other word. -/
theorem decodeFamilyF_fitsWord (hf : (fieldF w).toNat = 15) : (decodeFamilyF w).fitsWord true w := by
  have hspace : isUnimplWord true w = true ↔
      (fieldNN w).toNat ∉ [0x07, 0x0A, 0x15, 0x18, 0x1E, 0x29, 0x33, 0x55, 0x65] := by
    simp [isUnimplWord_iff, isAluHole_iff, ← Bool.not_eq_true, isExtWord_iff, hf]
  unfold decodeFamilyF
  split
  case h_10 => exact Instr.fitsWord_unimpl (hspace.mpr (by simp_all))
  all_goals exact Instr.fitsWord_of_wf rfl (by simp [*])

/-- With the extension off families 0xE and 0xF are UNIMPL. -/
theorem Instr.fitsWord_of_extension {j : Instr} (hf : 14 ≤ (fieldF w).toNat) (hj : j.fitsWord true w) :
    (if ext = true then j else .unimpl w).fitsWord ext w := by
  cases ext
  · exact Instr.fitsWord_unimpl ((isUnimplWord_iff false w).mpr (.inr ⟨hf, by simp⟩))
  · exact hj

theorem decode_fitsWord (ext : Bool) (w : Word) : (decode ext w).fitsWord ext w := by
  have hlt := (fieldF w).isLt
  unfold decode
  split
  case h_1 hf => exact decodeFamily0_fitsWord hf
  case h_9 hf => exact decodeFamily8_fitsWord hf
  case h_15 hf => exact Instr.fitsWord_of_extension hf.ge (decodeFamilyE_fitsWord hf)
  case h_16 =>
    simp only [imp_false] at *
    have hf : (fieldF w).toNat = 15 := by omega
    exact Instr.fitsWord_of_extension (by omega) (decodeFamilyF_fitsWord hf)
  all_goals exact Instr.fitsWord_of_family rfl (by omega) (by omega)

end

/-- A word of the space of R107 decodes to UNIMPL. -/
theorem decode_of_isUnimplWord {ext : Bool} {w : Word} (h : isUnimplWord ext w = true) :
    decode ext w = .unimpl w := by
  rcases decode_fitsWord ext w with ⟨_, e⟩ | ⟨hout, _⟩
  · exact e
  · exact absurd (hout.symm.trans h) Bool.false_ne_true

theorem decode_wf (ext : Bool) (w : Word) : (decode ext w).wf ext = true := by
  rcases decode_fitsWord ext w with ⟨h, e⟩ | ⟨_, hwf⟩
  · rw [e]
    exact h
  · exact hwf

/-! ## Decoding what encode gives (R109) -/

theorem decode_encode {ext : Bool} {i : Instr} (h : i.wf ext = true) : decode ext (encode i) = i := by
  cases i with
  | cls | ret => rfl
  | jp nnn | call nnn | ldI nnn | jpV0 nnn => simp [decode, encode, fieldF_encFNNN, fieldNNN_encFNNN]
  | seByte x nn | sneByte x nn | ldByte x nn | addByte x nn | rnd x nn =>
    simp [decode, encode, fieldF_encFXNN, fieldX_encFXNN, fieldNN_encFXNN]
  | seReg x y | sneReg x y | drw x y n =>
    simp [decode, encode, fieldF_encFXYN, fieldX_encFXYN, fieldY_encFXYN, fieldN_encFXYN]
  | ldReg x y | orReg x y | andReg x y | xorReg x y | addReg x y | subReg x y | shr x y | subn x y | shl x y =>
    simp [decode, decodeFamily8, encode, fieldF_encFXYN, fieldX_encFXYN, fieldY_encFXYN, fieldN_encFXYN]
  | unimpl w => exact decode_of_isUnimplWord h
  | skp x | sknp x =>
    obtain rfl : ext = true := h
    simp [decode, decodeFamilyE, encode, fieldF_encFXNN, fieldX_encFXNN, fieldNN_encFXNN]
  | ldVxDT x | ldVxK x | ldDTVx x | ldSTVx x | addI x | ldF x | ldB x | storeRegs x | loadRegs x =>
    obtain rfl : ext = true := h
    simp [decode, decodeFamilyF, encode, fieldF_encFXNN, fieldX_encFXNN, fieldNN_encFXNN]

/-- The bytes of an instruction, whatever follows them, decode as its word (R73, R102). -/
theorem decodeBytes_encodeBytes (ext : Bool) (i : Instr) (rest : List Byte) :
    decodeBytes ext (encodeBytes i ++ rest) = .ok (decode ext (encode i), rest) := by
  show Except.ok (decode ext (wordOfBytes (highByte (encode i)) (lowByte (encode i))), rest) = _
  rw [wordOfBytes_bytes]

end Sys2Proof

namespace Sys2Proof.Machine

/-! ## Every instruction runs or is refused (R264, R372) -/

/-- A guarded instruction runs, or is refused under `VF_ALIAS = Fault`. -/
theorem State.guardAlias_runs_or_refuses (s run : State) (aliases : Bool) :
    (∃ t, s.guardAlias aliases run = .next t) ∨
      (s.guardAlias aliases run = .refused .vfOperand ∧ s.cfg.vfAlias = .fault) := by
  rcases s.guardAlias_cases aliases run with ⟨_, hfault, e⟩ | ⟨_, e⟩
  · exact .inr ⟨e, hfault⟩
  · exact .inl ⟨run, e⟩

/-- SKP and SKNP run, or are refused for a key index above 15 (R361, R362). -/
theorem State.key_runs_or_refuses (s run : State) (x : Nibble) {o : Host.Outcome State Fault Refusal}
    (ho : o = if 15 < s.readV x then .refused .keyIndexRange else .next run) :
    (∃ t, o = .next t) ∨ (o = .refused .keyIndexRange ∧ 15 < s.readV x) := by
  split at ho
  case isTrue h => exact .inr ⟨ho, h⟩
  case isFalse => exact .inl ⟨run, ho⟩

/-! ## The step that runs a fetched word (R100) -/

/-- A step of a live session whose next operation is a cycle runs the word at pc, when the advance stays in range,
with that operation taken and pc past the word. -/
theorem step_runs_fetched_word {s t : State} (hwf : s.cfg.Wf) (hlive : s.live) (hnext : s.cycleNext t)
    (hadv : s.cfg.pcOk (s.pc + 2)) :
    step s =
      exec (decode s.cfg.extEF (wordOfBytes (s.byteAt s.pc) (s.byteAt (s.pc + 1)))) { t with pc := s.pc + 2 } := by
  have hframe := hnext.frame
  have hcfg : t.cfg = s.cfg := by rw [hframe]
  have hpc : t.pc = s.pc := by rw [hframe]
  have hbyte (a : Nat) : t.byteAt a = s.byteAt a := by rw [hframe]; rfl
  rw [step_of_cycleNext hlive hnext, State.cycle_of_advance_ok (hcfg ▸ hwf) (by rwa [hcfg, hpc]), hcfg, hpc,
    hbyte, hbyte]
  rfl

/-! ## A placed word (log 22) -/

theorem highByte_ofNat_toNat (w : Nat) : (highByte (BitVec.ofNat 16 w)).toNat = w / 256 % 256 := by
  simp only [highByte, BitVec.extractLsb'_toNat, BitVec.toNat_ofNat, Nat.shiftRight_eq_div_pow]
  omega

theorem lowByte_ofNat_toNat (w : Nat) : (lowByte (BitVec.ofNat 16 w)).toNat = w % 256 := by
  simp only [lowByte, BitVec.extractLsb'_toNat, BitVec.toNat_ofNat, Nat.shiftRight_eq_div_pow]
  omega

/-- A row of the opcode table is read with the extension on. -/
theorem decodeTableWord_eq (n w : Nat) : decodeTableWord n w = some (decode true (BitVec.ofNat 16 w)) := by
  show some (decode true (wordOfBytes (highByte _) (lowByte _))) = _
  rw [wordOfBytes_bytes]

/-- Placing a word changes EXT_EF alone of the parameters. -/
theorem cfgForWord_eq (w : Word) (cfg : Config) :
    cfgForWord w cfg = { cfg with extEF := (cfgForWord w cfg).extEF } := by
  unfold cfgForWord
  split <;> rfl

/-- With the parameters for the word, the decoder reads it as the table's does: EXT_EF is on, or the word is the same
instruction under both settings (log 14). -/
theorem decode_cfgForWord (w : Word) (cfg : Config) : decode (cfgForWord w cfg).extEF w = decode true w := by
  unfold cfgForWord
  split
  case isTrue => rfl
  case isFalse h =>
    have hsame : decode true w = decode false w := by simpa [needsExt] using h
    cases cfg.extEF
    · exact hsame.symm
    · rfl

section

variable {s : State} (w : Word)

theorem State.placeWord_live : (s.placeWord w).live := ⟨rfl, rfl⟩

/-- The operation that placing a word schedules is the next one. -/
theorem State.placeWord_cycleNext : (s.placeWord w).cycleNext { s.placeWord w with schedule := s.schedule } := rfl

theorem State.placeWord_wf (h : s.cfg.Wf) : (s.placeWord w).cfg.Wf := by
  show (cfgForWord w s.cfg).Wf
  rw [cfgForWord_eq]
  exact { h with }

theorem State.placeWord_pcOk (v : Nat) : (s.placeWord w).cfg.pcOk v ↔ s.cfg.pcOk v := by
  show (cfgForWord w s.cfg).pcOk v ↔ _
  rw [cfgForWord_eq]

theorem State.byteAt_placeWord_high (h : Memory.wf s.mem = true) : (s.placeWord w).byteAt s.pc = highByte w :=
  Memory.read_writeBytes_inside s.pc [highByte w, lowByte w] h (k := 0) (by simp)

theorem State.byteAt_placeWord_low (h : Memory.wf s.mem = true) : (s.placeWord w).byteAt (s.pc + 1) = lowByte w :=
  Memory.read_writeBytes_inside s.pc [highByte w, lowByte w] h (k := 1) (by simp)

theorem State.byteAt_placeWord_other {a : Nat} (h : a ≠ s.pc) (h1 : a ≠ s.pc + 1) :
    (s.placeWord w).byteAt a = s.byteAt a := by
  refine Memory.read_writeBytes_outside s.mem s.pc [highByte w, lowByte w] ?_
  simp only [List.length_cons, List.length_nil]
  omega

/-- The step after a word is placed runs that word, read as the table's decoder reads it. -/
theorem step_placeWord (hinv : s.Inv) (hadv : s.cfg.pcOk (s.pc + 2)) :
    step (s.placeWord w) =
      exec (decode true w) { s.placeWord w with schedule := s.schedule, pc := s.pc + 2 } := by
  have hstep := step_runs_fetched_word (s.placeWord_wf w hinv.cfgWf) (s.placeWord_live w) (s.placeWord_cycleNext w)
    ((s.placeWord_pcOk w _).mpr hadv)
  have hhigh : (s.placeWord w).byteAt (s.placeWord w).pc = highByte w := s.byteAt_placeWord_high w hinv.memWf
  have hlow : (s.placeWord w).byteAt ((s.placeWord w).pc + 1) = lowByte w := s.byteAt_placeWord_low w hinv.memWf
  rw [hhigh, hlow, wordOfBytes_bytes] at hstep
  rw [hstep]
  exact congrArg (exec · _) (decode_cfgForWord w s.cfg)

end

end Sys2Proof.Machine

/-! # The statements of the encoding, settled -/

namespace Sys2Proof.Machine

/-- Settles O2: the fields of each layout are read back, and UNIMPL stands for a word of R107 only. -/
theorem decodeOfEncodeIsTheInstruction : Obligations.DecodeOfEncodeIsTheInstruction := by
  intro ext i rest hwf
  have hdecode := decode_encode hwf
  exact ⟨hdecode, by rw [decodeBytes_encodeBytes, hdecode]⟩

/-- Settles O3: UNIMPL is well-formed for the words of R107 only, and each of them decodes to it. -/
theorem unimplementedWordsAreThoseOfRule107 : Obligations.UnimplementedWordsAreThoseOfRule107 := by
  intro ext w
  have hwf := decode_wf ext w
  refine ⟨hwf, fun h => ?_, decode_of_isUnimplWord⟩
  rw [h] at hwf
  exact hwf

/-- Settles O6: the placed bytes are those the cycle fetches, and EXT_EF is on where the word needs it. -/
theorem placedWordRunsNext : Obligations.PlacedWordRunsNext := by
  intro s n w hinv hadv
  refine ⟨_, _, decodeTableWord_eq n w, step_placeWord (BitVec.ofNat 16 w) hinv hadv, rfl, ?_, ?_, ?_⟩
  · exact (congrArg BitVec.toNat (s.byteAt_placeWord_high _ hinv.memWf)).trans (highByte_ofNat_toNat w)
  · exact (congrArg BitVec.toNat (s.byteAt_placeWord_low _ hinv.memWf)).trans (lowByte_ofNat_toNat w)
  · exact fun a h h1 => s.byteAt_placeWord_other _ h h1

/-- Settles O47: the guard of R264 and the key index of SKP and SKNP refuse, and every other instruction answers a
next state. -/
theorem everyInstructionRunsOrIsRefusedByTheSpec : Obligations.EveryInstructionRunsOrIsRefusedByTheSpec := by
  intro i s
  cases i with
  | addReg _ _ | subReg _ _ | shr _ _ | subn _ _ | shl _ _ | drw _ _ _ =>
    exact (s.guardAlias_runs_or_refuses _ _).imp_right .inl
  | skp x => exact (s.key_runs_or_refuses _ x rfl).imp_right fun ⟨e, hx⟩ => .inr ⟨e, x, .inl rfl, hx⟩
  | sknp x => exact (s.key_runs_or_refuses _ x rfl).imp_right fun ⟨e, hx⟩ => .inr ⟨e, x, .inr rfl, hx⟩
  | ret =>
    obtain ⟨t, e, _⟩ := execRet_effect s
    exact .inl ⟨t, e⟩
  | call nnn =>
    obtain ⟨t, e, _⟩ := execCall_effect nnn s
    exact .inl ⟨t, e⟩
  | cls | jp _ | seByte _ _ | sneByte _ _ | seReg _ _ | sneReg _ _ | jpV0 _ => exact .inl ⟨_, rfl⟩
  | ldByte _ _ | addByte _ _ | ldReg _ _ | orReg _ _ | andReg _ _ | xorReg _ _ => exact .inl ⟨_, rfl⟩
  | unimpl _ | ldI _ | rnd _ _ => exact .inl ⟨_, rfl⟩
  | ldVxDT _ | ldVxK _ | ldDTVx _ | ldSTVx _ | addI _ | ldF _ | ldB _ | storeRegs _ | loadRegs _ =>
    exact .inl ⟨_, rfl⟩

/-- Settles O1, by evaluating the decoder on each of the ten words. -/
theorem writtenWordsDecodeAsTheRulesSay : Obligations.WrittenWordsDecodeAsTheRulesSay := by
  unfold Obligations.WrittenWordsDecodeAsTheRulesSay
  decide

/-- Settles O4: the two bytes that the list decodes are those of the word that the cycle fetches. -/
theorem stepRunsTheDecodedInstruction : Obligations.StepRunsTheDecodedInstruction := by
  intro s t i hwf hlive hnext hadv hdecode
  obtain ⟨rfl, _⟩ : decode s.cfg.extEF (wordOfBytes (s.byteAt s.pc) (s.byteAt (s.pc + 1))) = i ∧ _ :=
    Prod.mk.inj (Except.ok.inj hdecode)
  exact step_runs_fetched_word hwf hlive hnext hadv

end Sys2Proof.Machine

/-! # Control flow (40_control_flow.md R200 to R209): RET, JP, CALL, the skips, JP V0, and the return from a call

Lemmas first, each about one operation of the model; the statements of the family are settled at the end. -/

namespace Sys2Proof.Machine

section

variable {s : State} {i : Instr}

/-! ## SetPC as the last operation of an instruction (R15) -/

/-- Where the parameters make sense, pc holds the value itself. -/
theorem State.setPC_eq {v : Nat} (hwf : s.cfg.Wf) (hv : s.cfg.pcOk v) : s.setPC v = { s with pc := v } :=
  (s.setPC_of_ok hv).trans (State.putPc_of_ok hwf hv)

theorem abortsWith_setPC {v : Nat} (hv : ¬s.cfg.pcOk v) : abortsWith (.next (s.setPC v)) (.pcOutOfRange v) s := by
  rw [s.setPC_of_not_ok hv]
  exact abortsWith_raiseFatal s _

/-- An instruction that is SetPC alone jumps, or aborts above `MEM_SIZE - 2` (R201, R207). -/
theorem jumpsOrAborts_of_setPC {v : Nat} (hwf : s.cfg.Wf) (h : exec i s = .next (s.setPC v)) :
    (s.cfg.pcOk v → ∃ t, exec i s = .next t ∧ t.pc = v ∧ t = { s with pc := t.pc } ∧ s.sameMemory t) ∧
    (¬s.cfg.pcOk v → abortsWith (exec i s) (.pcOutOfRange v) s) := by
  rw [h]
  refine ⟨fun hv => ?_, abortsWith_setPC⟩
  rw [State.setPC_eq hwf hv]
  exact ⟨_, rfl, rfl, rfl, fun _ => rfl⟩

/-- An instruction that is a conditional skip alone meets the statement of a skip on what its test decides (R203 to
R206). -/
theorem skipsWhen_of_skipIf {c : Prop} {b : Bool} (hwf : s.cfg.Wf) (h : exec i s = .next (s.skipIf b))
    (hb : b = true ↔ c) : s.skipsWhen i c := by
  rw [State.skipsWhen, h, ← hb]
  cases b with
  | false => exact ⟨nofun, nofun, fun _ => rfl⟩
  | true =>
    refine ⟨fun _ hv => ?_, fun _ => abortsWith_setPC, fun hc => absurd rfl hc⟩
    exact ⟨_, congrArg Host.Outcome.next (State.setPC_eq hwf hv), rfl, fun _ => rfl⟩

/-! ## The target of JP V0 (R207) -/

theorem addrX_append (x : Nibble) (nn : Byte) : addrX (x ++ nn) = x := by
  apply BitVec.eq_of_toNat_eq
  rw [addrX, BitVec.extractLsb'_toNat, toNat_append_eq, Nat.shiftRight_eq_div_pow]
  omega

theorem State.jumpTarget_append (s : State) (x : Nibble) (nn : Byte) :
    s.jumpTarget (x ++ nn) =
      (if s.cfg.quirkJump = .jumpV0 then s.readV 0#4 else s.readV x) + (x.toNat * 256 + nn.toNat) := by
  rw [State.jumpTarget, addrX_append, toNat_append_eq]
  cases s.cfg.quirkJump <;> rfl

/-! ## The stack (R39 to R41) -/

theorem State.push_of_lt (n : Nat) (h : s.sp < s.cfg.stackDepth) :
    s.push n = some { s with stack := tableSet 0 s.sp (keepBits s.cfg.stackWidth n) s.stack, sp := s.sp + 1 } :=
  if_pos h

theorem State.pop_of_succ {k : Nat} (h : s.sp = k + 1) : s.pop = some (s.entry k, { s with sp := k }) := by
  rw [State.pop, if_neg (by omega), h, Nat.add_sub_cancel]

/-! ## RET and CALL, a case for each state of the stack (R200, R202) -/

theorem exec_ret_of_empty (h : s.sp = 0) : exec .ret s = .next (s.raiseFatal (.stackUnderflow (s.pc - 2))) := by
  show execRet s = _
  rw [execRet, State.pop_none.mpr h]
  rfl

theorem exec_ret_of_succ {k : Nat} (h : s.sp = k + 1) :
    exec .ret s = .next (State.setPC (s.entry k) { s with sp := k }) := by
  show execRet s = _
  rw [execRet, State.pop_of_succ h]

/-- Below capacity the entry holds pc itself, which fits into it. -/
theorem exec_call_of_lt (nnn : Addr) (hwf : s.cfg.Wf) (hpc : s.cfg.pcOk s.pc) (h : s.sp < s.cfg.stackDepth) :
    exec (.call nnn) s =
      .next (State.setPC nnn.toNat { s with stack := tableSet 0 s.sp s.pc s.stack, sp := s.sp + 1 }) := by
  show execCall nnn s = _
  rw [execCall, State.push_of_lt _ h, keepBits_of_lt (hwf.pcOk_lt_stack hpc)]

theorem exec_call_of_full (nnn : Addr) (h : s.cfg.stackDepth ≤ s.sp) :
    exec (.call nnn) s = .next (s.report (.stackOverflow (s.pc - 2) (0x2#4 ++ nnn))) := by
  show execCall nnn s = _
  rw [execCall, (State.push_none _).mpr h]
  rfl

end

/-! ## The statements of the family, settled -/

/-- Settles O7: RET is a pop and then SetPC of the entry popped. -/
theorem retPopsTheReturnAddress : Obligations.RetPopsTheReturnAddress := by
  intro s hwf
  refine ⟨fun h0 => ?_, fun k hk hv => ?_, fun k hk hv => ?_⟩
  · rw [exec_ret_of_empty h0]
    exact abortsWith_raiseFatal s _
  · rw [exec_ret_of_succ hk, State.setPC_eq (s := { s with sp := k }) hwf hv]
    exact ⟨_, rfl, rfl, fun _ => rfl⟩
  · rw [exec_ret_of_succ hk]
    exact abortsWith_setPC (s := { s with sp := k }) hv

/-- Settles O8: JP is SetPC of NNN. -/
theorem jumpSetsPc : Obligations.JumpSetsPc :=
  fun _ _ hwf => jumpsOrAborts_of_setPC hwf rfl

/-- Settles O9: CALL is a push of the advanced pc and then SetPC of NNN, or a report alone where the push fails. -/
theorem callPushesAndJumps : Obligations.CallPushesAndJumps := by
  intro s nnn hwf hpc
  refine ⟨fun hlt hv => ?_, fun hlt hv => ?_, fun hfull => ?_⟩
  · have hentry (j : Nat) := s.entry_push s.sp j s.pc (s.sp + 1)
    rw [exec_call_of_lt nnn hwf hpc hlt, State.setPC_eq (s := { s with stack := _, sp := s.sp + 1 }) hwf hv]
    exact ⟨_, rfl, rfl, rfl, (hentry s.sp).trans (if_pos rfl), fun j hj => (hentry j).trans (if_neg hj), rfl,
      fun _ => rfl⟩
  · rw [exec_call_of_lt nnn hwf hpc hlt]
    exact abortsWith_setPC (s := { s with stack := _, sp := s.sp + 1 }) hv
  · exact ⟨_, exec_call_of_full nnn hfull, rfl, fun _ => rfl⟩

/-- Settles O10: each skip tests its own condition and is skipIf alone. -/
theorem skipsFollowTheirConditions : Obligations.SkipsFollowTheirConditions :=
  fun _ _ _ _ hwf =>
    ⟨skipsWhen_of_skipIf hwf rfl beq_iff_eq, skipsWhen_of_skipIf hwf rfl bne_iff_ne,
      skipsWhen_of_skipIf hwf rfl beq_iff_eq, skipsWhen_of_skipIf hwf rfl bne_iff_ne⟩

/-- Settles O11: JP V0 is SetPC of its target. -/
theorem indexedJumpAddsWithoutWrap : Obligations.IndexedJumpAddsWithoutWrap := by
  rintro s x nn _ hwf rfl
  rw [← s.jumpTarget_append]
  exact jumpsOrAborts_of_setPC hwf rfl

/-- Settles O12: CALL leaves the old pc in the entry that RET then pops, and the routine keeps it. -/
theorem callThenRetComesBack : Obligations.CallThenRetComesBack := by
  intro s t u nnn hwf hpc hlt hv hcall hcfg hsp hlive
  obtain ⟨hpush, -, -⟩ := callPushesAndJumps s nnn hwf hpc
  obtain ⟨t', ht', -, htsp, htentry, -, hframe, -⟩ := hpush hlt hv
  obtain rfl := Host.Outcome.next.inj (ht'.symm.trans hcall)
  have hucfg : u.cfg = s.cfg := by rw [hcfg, hframe]
  have husp : u.sp = s.sp + 1 := hsp.trans htsp
  have huentry : u.entry s.sp = s.pc := (hlive _ (by omega)).trans htentry
  obtain ⟨-, hpop, -⟩ := retPopsTheReturnAddress u (hucfg ▸ hwf)
  obtain ⟨r, hret, hr, -⟩ := hpop s.sp husp (by rwa [hucfg, huentry])
  exact ⟨r, hret, by rw [hr, huentry], by rw [hr], by rw [hr]⟩

end Sys2Proof.Machine

/-! # Register ALU (41_register_alu.md R250 to R265): loads and logic, the flag-setting operations, VF as an operand,
LD I and RND

Lemmas first, each about one operation of the model; the statements of the family are settled at the end. -/

namespace Sys2Proof

/-! ## The width of V (R9) -/

theorem Config.Wf.vWidth_pos {c : Config} (h : c.Wf) : 0 < c.vWidth := Nat.lt_of_lt_of_le (by decide) h.vWidth

/-- Half of V's range, the weight of its top bit (128 in R9). -/
theorem Config.Wf.half_range {c : Config} (h : c.Wf) : 2 ^ c.vWidth / 2 = 2 ^ (c.vWidth - 1) := by
  rw [← Nat.two_pow_pred_mul_two h.vWidth_pos, Nat.mul_div_cancel _ Nat.two_pos]

end Sys2Proof

namespace Sys2Proof.Machine

section

variable {s : State} {i : Instr} {x y : Nibble}

/-! ## An instruction that is one write to V (R250 to R255) -/

theorem State.onlyRegsChange_writeV (s : State) (x : Nibble) (n : Nat) : s.onlyRegsChange (s.writeV x n) [x] :=
  ⟨rfl, fun _ hr => s.readV_writeV_other n (List.ne_of_not_mem_cons hr), fun _ => rfl⟩

/-- A number of V's width, written alone, is what V[X] then holds. -/
theorem exec_writes_reg {n : Nat} (h : exec i s = .next (s.writeV x n)) (hn : n < 2 ^ s.cfg.vWidth) :
    ∃ t, exec i s = .next t ∧ t.readV x = n ∧ s.onlyRegsChange t [x] :=
  ⟨_, h, (s.readV_writeV_same x n).trans (keepBits_of_lt hn), s.onlyRegsChange_writeV x n⟩

/-- The same, with the number that is written given bit by bit (R253 to R255). -/
theorem exec_writes_bits {n : Nat} {bit : Nat → Bool} (h : exec i s = .next (s.writeV x n))
    (hn : n < 2 ^ s.cfg.vWidth) (hbit : ∀ k, n.testBit k = bit k) :
    ∃ t, exec i s = .next t ∧ s.onlyRegsChange t [x] ∧ ∀ k, (t.readV x).testBit k = bit k := by
  obtain ⟨t, ht, hx, honly⟩ := exec_writes_reg h hn
  exact ⟨t, ht, honly, fun k => by rw [hx, hbit]⟩

/-! ## VF as a flag (R37) -/

theorem toNat_decide_eq_flagValue (p : Prop) [Decidable p] : (decide p).toNat = flagValue p :=
  apply_ite Bool.toNat p true false

/-- After the flag is written VF is 0 or 1, and every other register is as before. -/
theorem State.readV_setFlag_of_wf (hwf : s.cfg.Wf) (b : Bool) (r : Nibble) :
    (s.setFlag b).readV r = if r = flagReg then b.toNat else s.readV r := by
  rw [s.readV_setFlag, keepBits_flag hwf.vWidth_pos]
  cases b <;> rfl

theorem toNat_shiftedOutRight (a : Nat) : (shiftedOutRight a).toNat = a % 2 := by
  rw [shiftedOutRight, Nat.toNat_testBit, Nat.pow_zero, Nat.div_one]

/-- The top bit of a number of V's width is what is left of it above the other bits. -/
theorem State.toNat_shiftedOutLeft (hwf : s.cfg.Wf) {a : Nat} (ha : a < 2 ^ s.cfg.vWidth) :
    (s.shiftedOutLeft a).toNat = a / 2 ^ (s.cfg.vWidth - 1) := by
  rw [State.shiftedOutLeft, Nat.toNat_testBit, Nat.mod_eq_of_lt]
  rwa [Nat.div_lt_iff_lt_mul (Nat.two_pow_pos _), Nat.mul_comm, Nat.two_pow_pred_mul_two hwf.vWidth_pos]

/-- The top bit alone, doubled, is 2 or 0 (the ShiftVX rows of R265). -/
theorem double_topBit {c : Config} (hwf : c.Wf) {a : Nat} (ha : a < 2 ^ c.vWidth) :
    a / 2 ^ (c.vWidth - 1) * 2 % 2 ^ c.vWidth = if a < 2 ^ c.vWidth / 2 then 0 else 2 := by
  have hbyte : 2 ^ 8 ≤ 2 ^ c.vWidth := Nat.pow_le_pow_right (by decide) hwf.vWidth
  have hrange := Nat.two_pow_pred_mul_two hwf.vWidth_pos
  rw [hwf.half_range]
  split
  case isTrue hlow => rw [Nat.div_eq_of_lt hlow, Nat.zero_mul, Nat.zero_mod]
  case isFalse hhigh =>
    rw [Nat.div_eq_of_lt_le (k := 1) (by omega) (by omega), Nat.one_mul, Nat.mod_eq_of_lt (by omega)]

/-! ## The words that name VF, and their refusal (R264) -/

theorem namesFlag_iff : namesFlag x y = true ↔ x = flagReg ∨ y = flagReg := by
  rw [namesFlag, Bool.or_eq_true, beq_iff_eq, beq_iff_eq]

theorem State.shiftNamesFlag_iff :
    s.shiftNamesFlag x y = true ↔ x = flagReg ∨ (y = flagReg ∧ s.cfg.quirkShift = .shiftVY) := by
  simp only [State.shiftNamesFlag, Bool.or_eq_true, Bool.and_eq_true, beq_iff_eq]

theorem State.guardAlias_refused_iff (s run : State) {aliases : Bool} :
    s.guardAlias aliases run = .refused .vfOperand ↔ s.cfg.vfAlias = .fault ∧ aliases = true := by
  rcases s.guardAlias_cases aliases run with ⟨ha, hfault, e⟩ | ⟨hruns, e⟩ <;> rw [e]
  · exact iff_of_true rfl ⟨hfault, ha⟩
  · refine iff_of_false nofun fun ⟨hfault, ha⟩ => ?_
    rcases hruns with hruns | hruns
    · exact absurd (ha.symm.trans hruns) (by decide)
    · exact absurd (hfault.symm.trans hruns) (by decide)

theorem State.guardAlias_runs (run : State) {aliases : Bool} (h : s.sequential ∨ ¬aliases = true) :
    s.guardAlias aliases run = .next run := by
  rcases s.guardAlias_cases aliases run with ⟨ha, hfault, _⟩ | ⟨_, e⟩
  · exact absurd (h.resolve_right (not_not_intro ha)) (by rw [State.sequential, hfault]; decide)
  · exact e

/-- The premise of the statements about two operands, as the guard of R264 reads it. -/
theorem State.runs_of_operands (h : s.sequential ∨ (x ≠ flagReg ∧ y ≠ flagReg)) :
    s.sequential ∨ ¬namesFlag x y = true :=
  h.imp_right fun ⟨hx, hy⟩ hn => (namesFlag_iff.mp hn).elim hx hy

/-- The premise of the statements about shifts, as the guard of R264 reads it. -/
theorem State.runs_of_shift (hx : x ≠ flagReg) (h : s.sequential ∨ y ≠ flagReg ∨ s.cfg.quirkShift = .shiftVX) :
    s.sequential ∨ ¬s.shiftNamesFlag x y = true := by
  refine h.imp_right fun hy hn => ?_
  obtain ⟨hyF, hq⟩ := (State.shiftNamesFlag_iff.mp hn).resolve_left hx
  rcases hy with hy | hq'
  · exact hy hyF
  · exact absurd (hq.symm.trans hq') (by decide)

/-! ## An instruction that writes VF and then V[X] (R256 to R260, R265) -/

/-- `i` runs, leaves `n`, kept to V's width, in V[X] and the flag `c` in VF, the data winning where X is F, and
changes nothing else (R265). -/
def State.writesFlagThenReg (s : State) (i : Instr) (x : Nibble) (c n : Nat) : Prop :=
  ∃ t, exec i s = .next t ∧ t.readV x = n % 2 ^ s.cfg.vWidth ∧ (x ≠ flagReg → t.readV flagReg = c) ∧
    s.onlyRegsChange t [x, flagReg]

theorem State.onlyRegsChange_setFlag_writeV (s : State) (b : Bool) (x : Nibble) (n : Nat) :
    s.onlyRegsChange ((s.setFlag b).writeV x n) [x, flagReg] := by
  refine ⟨rfl, fun r hr => ?_, fun _ => rfl⟩
  obtain ⟨hx, hflag⟩ := not_or.mp (List.mem_pair.not.mp hr)
  rw [State.readV_writeV_other _ n hx, s.readV_setFlag, if_neg hflag]

theorem State.writesFlagThenReg_of_exec (hwf : s.cfg.Wf) {b : Bool} {n : Nat}
    (h : exec i s = .next ((s.setFlag b).writeV x n)) : s.writesFlagThenReg i x b.toNat n := by
  refine ⟨_, h, State.readV_writeV_same _ x n, fun hx => ?_, s.onlyRegsChange_setFlag_writeV b x n⟩
  rw [State.readV_writeV_other _ n hx.symm, State.readV_setFlag_of_wf hwf, if_pos rfl]

/-- Where X is F, VF alone changes, and holds the data. -/
theorem State.writesFlagThenReg.vf {c n m : Nat} (h : s.writesFlagThenReg i flagReg c n)
    (hm : n % 2 ^ s.cfg.vWidth = m) :
    ∃ t, exec i s = .next t ∧ t.readV flagReg = m ∧ s.onlyRegsChange t [flagReg] := by
  obtain ⟨t, ht, hread, -, hframe, hregs, hmem⟩ := h
  exact ⟨t, ht, hread.trans hm, hframe, fun r hr => hregs r (by simpa using hr), hmem⟩

/-- Where X is not F, VF holds the flag and V[X] the data. -/
theorem State.writesFlagThenReg.flag_and_reg {c n m : Nat} (h : s.writesFlagThenReg i x c n) (hx : x ≠ flagReg)
    (hm : n % 2 ^ s.cfg.vWidth = m) :
    ∃ t, exec i s = .next t ∧ t.readV flagReg = c ∧ t.readV x = m ∧ s.onlyRegsChange t [x, flagReg] := by
  obtain ⟨t, ht, hread, hflag, honly⟩ := h
  exact ⟨t, ht, hflag hx, hread.trans hm, honly⟩

/-! ## ADD, SUB and SUBN (R256, R257, R259) -/

theorem State.writesFlagThenReg_addReg (hwf : s.cfg.Wf) (hrun : s.sequential ∨ ¬namesFlag x y = true) :
    s.writesFlagThenReg (.addReg x y) x (flagValue (2 ^ s.cfg.vWidth ≤ s.readV x + s.readV y))
      (s.readV x + s.readV y) := by
  rw [← toNat_decide_eq_flagValue]
  exact State.writesFlagThenReg_of_exec hwf (State.guardAlias_runs _ hrun)

/-- The difference that is taken after the flag is written: an operand that is VF counts as the flag (R265). -/
theorem State.minus_setFlag (hwf : s.cfg.Wf) (b : Bool) (p q : Nibble) :
    (s.setFlag b).minus ((s.setFlag b).readV p) ((s.setFlag b).readV q) =
      (if p = flagReg then b.toNat else s.readV p) + 2 ^ s.cfg.vWidth -
        (if q = flagReg then b.toNat else s.readV q) := by
  rw [State.minus, State.readV_setFlag_of_wf hwf, State.readV_setFlag_of_wf hwf, State.setFlag_cfg]

theorem State.writesFlagThenReg_subReg (hwf : s.cfg.Wf) (hrun : s.sequential ∨ ¬namesFlag x y = true) {c : Nat}
    (hc : c = flagValue (s.readV y ≤ s.readV x)) :
    s.writesFlagThenReg (.subReg x y) x c
      ((if x = flagReg then c else s.readV x) + 2 ^ s.cfg.vWidth - (if y = flagReg then c else s.readV y)) := by
  rw [hc, ← toNat_decide_eq_flagValue, ← State.minus_setFlag hwf]
  exact State.writesFlagThenReg_of_exec hwf (State.guardAlias_runs _ hrun)

theorem State.writesFlagThenReg_subn (hwf : s.cfg.Wf) (hrun : s.sequential ∨ ¬namesFlag x y = true) {c : Nat}
    (hc : c = flagValue (s.readV x ≤ s.readV y)) :
    s.writesFlagThenReg (.subn x y) x c
      ((if y = flagReg then c else s.readV y) + 2 ^ s.cfg.vWidth - (if x = flagReg then c else s.readV x)) := by
  rw [hc, ← toNat_decide_eq_flagValue, ← State.minus_setFlag hwf]
  exact State.writesFlagThenReg_of_exec hwf (State.guardAlias_runs _ hrun)

/-! ## SHR and SHL (R258, R260) -/

/-- The source register of a shift under the session's QUIRK_SHIFT (R258, R260). -/
def State.shiftSource (x y : Nibble) (s : State) : Nat :=
  if s.cfg.quirkShift = .shiftVX then s.readV x else s.readV y

/-- The number that is shifted: under ShiftVX the source is read again after the VF write, so that VF counts as the
flag `c` (R265). -/
def State.shiftOperand (x y : Nibble) (c : Nat) (s : State) : Nat :=
  if s.cfg.quirkShift = .shiftVX ∧ x = flagReg then c else s.shiftSource x y

theorem State.shiftSource_of_vx (h : s.cfg.quirkShift = .shiftVX) : s.shiftSource x y = s.readV x := if_pos h

theorem State.shiftSource_of_vy (h : s.cfg.quirkShift = .shiftVY) : s.shiftSource x y = s.readV y :=
  if_neg (by rw [h]; decide)

theorem State.shiftOperand_of_ne {c : Nat} (h : x ≠ flagReg) : s.shiftOperand x y c = s.shiftSource x y :=
  if_neg fun ⟨_, hx⟩ => h hx

theorem State.shiftOperand_of_vx {c : Nat} (h : s.cfg.quirkShift = .shiftVX) : s.shiftOperand flagReg y c = c :=
  if_pos ⟨h, rfl⟩

theorem State.shiftOperand_of_vy {c : Nat} (h : s.cfg.quirkShift = .shiftVY) : s.shiftOperand x y c = s.readV y :=
  (if_neg fun ⟨hq, _⟩ => absurd (h.symm.trans hq) (by decide)).trans (State.shiftSource_of_vy h)

theorem State.InWidths.shiftSource_lt (h : s.InWidths) (x y : Nibble) : s.shiftSource x y < 2 ^ s.cfg.vWidth := by
  rw [State.shiftSource]
  split
  · exact h.readV_lt x
  · exact h.readV_lt y

/-- SHR writes the bit shifted out of its source, then half its operand. -/
theorem State.shrReg_eq (hwf : s.cfg.Wf) (x y : Nibble) :
    s.shrReg x y = (s.setFlag (shiftedOutRight (s.shiftSource x y))).writeV x
      (s.shiftOperand x y (shiftedOutRight (s.shiftSource x y)).toNat / 2) := by
  rw [State.shrReg]
  split
  next h =>
    simp only [State.shiftSource_of_vx h, State.shiftOperand, State.readV_setFlag_of_wf hwf, h, true_and]
    rfl
  next h =>
    rw [State.shiftSource_of_vy h, State.shiftOperand_of_vy h]
    rfl

/-- SHL writes the bit shifted out of its source, then twice its operand. -/
theorem State.shlReg_eq (hwf : s.cfg.Wf) (x y : Nibble) :
    s.shlReg x y = (s.setFlag (s.shiftedOutLeft (s.shiftSource x y))).writeV x
      (s.shiftOperand x y (s.shiftedOutLeft (s.shiftSource x y)).toNat * 2) := by
  rw [State.shlReg]
  split
  next h =>
    simp only [State.shiftSource_of_vx h, State.shiftOperand, State.readV_setFlag_of_wf hwf, h, true_and,
      Nat.shiftLeft_eq, Nat.pow_one]
  next h => rw [State.shiftSource_of_vy h, State.shiftOperand_of_vy h, Nat.shiftLeft_eq, Nat.pow_one]

theorem State.writesFlagThenReg_shr (hwf : s.cfg.Wf) (hrun : s.sequential ∨ ¬s.shiftNamesFlag x y = true) :
    s.writesFlagThenReg (.shr x y) x (s.shiftSource x y % 2)
      (s.shiftOperand x y (s.shiftSource x y % 2) / 2) := by
  rw [← toNat_shiftedOutRight]
  refine State.writesFlagThenReg_of_exec hwf ?_
  rw [← State.shrReg_eq hwf]
  exact State.guardAlias_runs _ hrun

theorem State.writesFlagThenReg_shl (hwf : s.cfg.Wf) (hwidths : s.InWidths)
    (hrun : s.sequential ∨ ¬s.shiftNamesFlag x y = true) :
    s.writesFlagThenReg (.shl x y) x (s.shiftSource x y / 2 ^ (s.cfg.vWidth - 1))
      (s.shiftOperand x y (s.shiftSource x y / 2 ^ (s.cfg.vWidth - 1)) * 2) := by
  rw [← State.toNat_shiftedOutLeft hwf (hwidths.shiftSource_lt x y)]
  refine State.writesFlagThenReg_of_exec hwf ?_
  rw [← State.shlReg_eq hwf]
  exact State.guardAlias_runs _ hrun

/-! ## RND (R262) -/

theorem State.drawRandom_of_cons {b : Byte} {rest : List Byte} (h : s.randoms = b :: rest) :
    s.drawRandom = (b, { s with randoms := rest }) := by
  rw [State.drawRandom, h]

theorem State.drawRandom_of_nil (h : s.randoms = []) :
    s.drawRandom = (Config.hostRandom s.free, { s with free := s.free + 1 }) := by
  rw [State.drawRandom, h]

theorem exec_rnd_of_draw {b : Byte} {t : State} (x : Nibble) (nn : Byte) (h : s.drawRandom = (b, t)) :
    exec (.rnd x nn) s = .next (t.writeV x (b &&& nn).toNat) := by
  show execRnd x nn s = _
  rw [execRnd, h]

theorem State.readV_writeV_byte (hwf : s.cfg.Wf) (x : Nibble) (b : Byte) : (s.writeV x b.toNat).readV x = b.toNat :=
  (s.readV_writeV_same x b.toNat).trans (keepBits_of_lt (hwf.byte_lt b))

end

/-! ## The statements of the family, settled -/

/-- Settles O15: the carry of the sum goes to VF, then the sum to V[X]. -/
theorem addSetsCarry : Obligations.AddSetsCarry :=
  fun _ _ _ hwf hrun => State.writesFlagThenReg_addReg hwf (State.runs_of_operands hrun)

/-- Settles O16: NOT borrow goes to VF, then the difference of what V[X] and V[Y] then hold to V[X]. -/
theorem subSetsNotBorrow : Obligations.SubSetsNotBorrow :=
  fun _ _ _ _ hwf hrun hc => State.writesFlagThenReg_subReg hwf (State.runs_of_operands hrun) hc

/-- Settles O17: SUB with the operands exchanged. -/
theorem subnSetsNotBorrow : Obligations.SubnSetsNotBorrow :=
  fun _ _ _ _ hwf hrun hc => State.writesFlagThenReg_subn hwf (State.runs_of_operands hrun) hc

/-- Settles O18: half of a number of V's width is of V's width. -/
theorem shrHalvesAndSetsTheLostBit : Obligations.ShrHalvesAndSetsTheLostBit := by
  rintro s x y _ hwf hwidths hx hrun rfl
  obtain ⟨t, ht, hread, hflag, honly⟩ := State.writesFlagThenReg_shr hwf (State.runs_of_shift hx hrun)
  rw [State.shiftOperand_of_ne hx, Nat.mod_eq_of_lt (by have := hwidths.shiftSource_lt x y; omega)] at hread
  exact ⟨t, ht, hread, hflag hx, honly⟩

/-- Settles O19: where X is not F the VF write does not touch the source. -/
theorem shlDoublesAndSetsTheLostBit : Obligations.ShlDoublesAndSetsTheLostBit := by
  rintro s x y _ hwf hwidths hx hrun rfl
  obtain ⟨t, ht, hread, hflag, honly⟩ := State.writesFlagThenReg_shl hwf hwidths (State.runs_of_shift hx hrun)
  rw [State.shiftOperand_of_ne hx] at hread
  exact ⟨t, ht, hread, hflag hx, honly⟩

/-- Settles O20: each row of the table is the operation's rule with VF for X, for Y or for both. -/
theorem vfAsOperandFollowsTheSequentialReading : Obligations.VfAsOperandFollowsTheSequentialReading := by
  rintro s x _ _ _ hwf hwidths hseq hx rfl rfl rfl
  have hadd (p q : Nibble) := State.writesFlagThenReg_addReg (x := p) (y := q) hwf (.inl hseq)
  have hsub (p q : Nibble) := State.writesFlagThenReg_subReg (x := p) (y := q) hwf (.inl hseq) rfl
  have hsubn (p q : Nibble) := State.writesFlagThenReg_subn (x := p) (y := q) hwf (.inl hseq) rfl
  have hshr (p q : Nibble) := State.writesFlagThenReg_shr (x := p) (y := q) hwf (.inl hseq)
  have hshl (p q : Nibble) := State.writesFlagThenReg_shl (x := p) (y := q) hwf hwidths (.inl hseq)
  refine ⟨(hadd flagReg x).vf rfl, (hadd x flagReg).flag_and_reg hx rfl,
    (hadd flagReg flagReg).vf (by rw [Nat.two_mul]),
    (hsub flagReg x).vf ?_, (hsub x flagReg).flag_and_reg hx ?_, (hsub flagReg flagReg).vf ?_,
    (hsubn flagReg x).vf ?_, (hsubn x flagReg).flag_and_reg hx ?_, (hsubn flagReg flagReg).vf ?_,
    fun y hq => ⟨(hshr flagReg y).vf ?_, (hshl flagReg y).vf ?_⟩, fun hq => ?_⟩
  case refine_1 | refine_2 | refine_4 | refine_5 => rw [if_pos rfl, if_neg hx]
  case refine_3 | refine_6 => rw [if_pos rfl, Nat.add_sub_cancel_left, Nat.mod_self]
  case refine_7 =>
    rw [State.shiftOperand_of_vx hq, Nat.div_eq_of_lt (Nat.mod_lt _ (by decide)), Nat.zero_mod]
  case refine_8 =>
    rw [State.shiftOperand_of_vx hq, State.shiftSource_of_vx hq]
    exact double_topBit hwf (hwidths.readV_lt flagReg)
  case refine_9 =>
    simp only [State.shiftSource_of_vy hq, State.shiftOperand_of_vy hq] at hshr hshl
    have hhalf (p : Nibble) : s.readV p / 2 % 2 ^ s.cfg.vWidth = s.readV p / 2 :=
      Nat.mod_eq_of_lt (Nat.lt_of_le_of_lt (Nat.div_le_self _ 2) (hwidths.readV_lt p))
    rw [hwf.half_range]
    exact ⟨(hshr x flagReg).flag_and_reg hx (hhalf _), (hshl x flagReg).flag_and_reg hx rfl,
      fun y => (hshr flagReg y).vf (hhalf y), fun y => (hshl flagReg y).vf rfl⟩

/-- Settles O21: the guard of R264 on the operands that each word names. -/
theorem vfAliasFaultRefusesTheListedWords : Obligations.VfAliasFaultRefusesTheListedWords := by
  intro s x y n
  have named (run : State) := (s.guardAlias_refused_iff run).trans (and_congr_right' (@namesFlag_iff x y))
  have shiftNamed (run : State) :=
    (s.guardAlias_refused_iff run).trans (and_congr_right' (@State.shiftNamesFlag_iff s x y))
  exact ⟨named _, named _, named _, shiftNamed _, shiftNamed _, named _⟩

/-- Settles O23: a draw, then a write to V of a number that fits into a byte. -/
theorem randomByteIsMasked : Obligations.RandomByteIsMasked := by
  intro s x nn hwf
  refine ⟨fun b rest hr => ?_, fun hr => ?_⟩
  · exact ⟨_, exec_rnd_of_draw x nn (State.drawRandom_of_cons hr),
      State.readV_writeV_byte (s := { s with randoms := rest }) hwf x _, rfl,
      fun _ hne => State.readV_writeV_other _ _ hne, fun _ => rfl⟩
  · exact ⟨_, exec_rnd_of_draw x nn (State.drawRandom_of_nil hr),
      ⟨_, State.readV_writeV_byte (s := { s with free := s.free + 1 }) hwf x _⟩, rfl,
      fun _ hne => State.readV_writeV_other _ _ hne, fun _ => rfl⟩

/-- Settles O13: each is one write to V of a number of V's width. -/
theorem loadsAndLogicWriteOnlyVx : Obligations.LoadsAndLogicWriteOnlyVx := by
  intro s x y nn hbyte hwidths
  have hx := hwidths.readV_lt x
  have hy := hwidths.readV_lt y
  have hnn : nn.toNat < 2 ^ s.cfg.vWidth := Nat.lt_of_lt_of_le nn.isLt (Nat.pow_le_pow_right (by decide) hbyte)
  exact ⟨exec_writes_reg rfl hnn, exec_writes_reg rfl hy,
    exec_writes_bits rfl (Nat.or_lt_two_pow hx hy) (Nat.testBit_or _ _),
    exec_writes_bits rfl (Nat.and_lt_two_pow _ hy) (Nat.testBit_and _ _),
    exec_writes_bits rfl (Nat.xor_lt_two_pow hx hy) (Nat.testBit_xor _ _)⟩

/-- Settles O14: the write keeps the sum to V's width. -/
theorem addImmediateWrapsWithoutFlag : Obligations.AddImmediateWrapsWithoutFlag := by
  intro s x nn
  have hread := s.readV_writeV_same x (s.readV x + nn.toNat)
  exact ⟨_, rfl, hread, fun h8 => by rw [hread, h8]; rfl, s.onlyRegsChange_writeV x _⟩

/-- Settles O22: NNN fits into I. -/
theorem loadIndexZeroExtends : Obligations.LoadIndexZeroExtends :=
  fun s nnn hI =>
    ⟨s.writeI nnn.toNat, rfl, keepBits_of_lt (Nat.lt_of_lt_of_le nnn.isLt (Nat.pow_le_pow_right (by decide) hI)), rfl,
      fun _ => rfl⟩

end Sys2Proof.Machine

/-! # Display (42_display.md R300 to R311): CLS, and DRW with its clipping, its collision flag and its aborts

Lemmas first, each about one operation of the model; the statements of the family are settled at the end. -/

namespace Sys2Proof.Machine

/-! ## Drawing a mask of pixels (R305, R306) -/

/-- `d` is `c` with the pixels of `mask` toggled, each once, and a collision recorded exactly when one of them was
on. -/
structure Canvas.Drawn (mask : Nat → Nat → Bool) (c d : Canvas) : Prop where
  pixel_eq : ∀ Y X, pixel d.fb Y X = (pixel c.fb Y X ^^ mask Y X)
  hit_iff : d.hit = true ↔ c.hit = true ∨ ∃ Y X, mask Y X = true ∧ pixel c.fb Y X = true

/-- Drawing no pixel leaves the canvas. -/
theorem Canvas.Drawn.none {mask : Nat → Nat → Bool} (h : ∀ Y X, ¬mask Y X = true) (c : Canvas) :
    Canvas.Drawn mask c c where
  pixel_eq Y X := by rw [Bool.eq_false_of_not_eq_true (h Y X), Bool.xor_false]
  hit_iff := (or_iff_left fun ⟨Y, X, hm, _⟩ => h Y X hm).symm

/-- Drawing two disjoint masks one after the other draws their union: the second meets the pixels that the first has
left alone. -/
theorem Canvas.Drawn.trans {m m' mask : Nat → Nat → Bool} {c d e : Canvas} (h : Canvas.Drawn m c d)
    (h' : Canvas.Drawn m' d e) (hdisj : ∀ Y X, m Y X = true → ¬m' Y X = true)
    (hunion : ∀ Y X, mask Y X = true ↔ m Y X = true ∨ m' Y X = true) : Canvas.Drawn mask c e where
  pixel_eq Y X := by
    have hmask : mask Y X = (m Y X ^^ m' Y X) := by
      by_cases hm : m Y X = true
      · rw [(hunion Y X).mpr (.inl hm), hm, Bool.eq_false_of_not_eq_true (hdisj Y X hm), Bool.xor_false]
      · rw [Bool.eq_false_of_not_eq_true hm, Bool.false_xor, Bool.eq_iff_iff, hunion, or_iff_right hm]
    rw [h'.pixel_eq, h.pixel_eq, hmask, Bool.xor_assoc]
  hit_iff := by
    have hseen (Y X : Nat) (hm : m' Y X = true) : pixel d.fb Y X = pixel c.fb Y X := by
      rw [h.pixel_eq, Bool.eq_false_of_not_eq_true fun hm' => hdisj Y X hm' hm, Bool.xor_false]
    rw [h'.hit_iff, h.hit_iff, or_assoc]
    refine or_congr_right ⟨?_, ?_⟩
    · rintro (⟨Y, X, hm, hp⟩ | ⟨Y, X, hm, hp⟩)
      · exact ⟨Y, X, (hunion Y X).mpr (.inl hm), hp⟩
      · exact ⟨Y, X, (hunion Y X).mpr (.inr hm), hseen Y X hm ▸ hp⟩
    · rintro ⟨Y, X, hm, hp⟩
      rcases (hunion Y X).mp hm with hm | hm
      · exact .inl ⟨Y, X, hm, hp⟩
      · exact .inr ⟨Y, X, hm, (hseen Y X hm).trans hp⟩

/-! ## One sprite row (R304) -/

/-- The pixels that bits `7 - k` downward, `n` of them, of a sprite byte draw at row `ry` of a screen of `w` columns:
those of its 1 bits that are left of the right edge. -/
def rowMask (w : Nat) (b : Byte) (x0 ry k n Y X : Nat) : Bool :=
  decide (Y = ry ∧ x0 + k ≤ X ∧ X < x0 + k + n ∧ X < w) && b.getLsbD (7 - (X - x0))

section

variable {w x0 ry : Nat} {b : Byte}

theorem rowMask_iff {k n Y X : Nat} :
    rowMask w b x0 ry k n Y X = true ↔
      (Y = ry ∧ x0 + k ≤ X ∧ X < x0 + k + n ∧ X < w) ∧ b.getLsbD (7 - (X - x0)) = true := by
  rw [rowMask, Bool.and_eq_true, decide_eq_true_eq]

/-- A single bit of a row is one pixel. -/
theorem rowMask_one_iff {k Y X : Nat} :
    rowMask w b x0 ry k 1 Y X = true ↔ (Y = ry ∧ X = x0 + k) ∧ x0 + k < w ∧ b.getLsbD (7 - k) = true := by
  rw [rowMask_iff]
  constructor
  · rintro ⟨⟨hY, hlo, hhi, hw⟩, hb⟩
    obtain rfl : X = x0 + k := by omega
    exact ⟨⟨hY, rfl⟩, hw, by rwa [Nat.add_sub_cancel_left] at hb⟩
  · rintro ⟨⟨hY, rfl⟩, hw, hb⟩
    exact ⟨⟨hY, by omega, by omega, hw⟩, by rwa [Nat.add_sub_cancel_left]⟩

theorem rowMask_succ_iff {k n Y X : Nat} :
    rowMask w b x0 ry k (n + 1) Y X = true ↔
      rowMask w b x0 ry k 1 Y X = true ∨ rowMask w b x0 ry (k + 1) n Y X = true := by
  rw [rowMask_iff, rowMask_iff, rowMask_iff, ← or_and_right]
  exact and_congr_left' (by omega)

theorem drawBit_drawn (k : Nat) (c : Canvas) :
    Canvas.Drawn (rowMask w b x0 ry k 1) c (drawBit w b x0 ry k c) := by
  rcases drawBit_cases w b x0 ry k c with ⟨hnone, e⟩ | ⟨hw, hb, e⟩ <;> rw [e]
  · exact Canvas.Drawn.none (fun Y X hm => hnone (rowMask_one_iff.mp hm).2) c
  · have hmask (Y X : Nat) : rowMask w b x0 ry k 1 Y X = true ↔ Y = ry ∧ X = x0 + k :=
      rowMask_one_iff.trans (and_iff_left ⟨hw, hb⟩)
    refine ⟨fun Y X => ?_, ?_⟩
    · rw [pixel_togglePixel]
      split
      case isTrue h => rw [(hmask Y X).mpr h, Bool.xor_true]
      case isFalse h => rw [Bool.eq_false_of_not_eq_true (mt (hmask Y X).mp h), Bool.xor_false]
    · simp only [hmask, Bool.or_eq_true]
      refine or_congr_right ⟨fun hp => ⟨_, _, ⟨rfl, rfl⟩, hp⟩, ?_⟩
      rintro ⟨Y, X, ⟨rfl, rfl⟩, hp⟩
      exact hp

theorem drawBits_drawn (n k : Nat) (c : Canvas) :
    Canvas.Drawn (rowMask w b x0 ry k n) c (drawBits w b x0 ry n k c) := by
  induction n generalizing k c with
  | zero => exact Canvas.Drawn.none (fun Y X hm => by have := (rowMask_iff.mp hm).1; omega) c
  | succ n ih =>
    refine (drawBit_drawn k c).trans (ih (k + 1) _) (fun Y X hm hm' => ?_) fun _ _ => rowMask_succ_iff
    have hcol := (rowMask_iff.mp hm).1
    have hcol' := (rowMask_iff.mp hm').1
    omega

theorem drawRow_drawn (c : Canvas) : Canvas.Drawn (rowMask w b x0 ry 0 8) c (drawRow w b x0 ry c) :=
  drawBits_drawn 8 0 c

end

/-! ## The rows of a sprite (R303, R307) -/

theorem State.spriteBit_iff {s : State} {x0 y0 n Y X : Nat} :
    s.spriteBit x0 y0 n Y X = true ↔
      (y0 ≤ Y ∧ Y < y0 + n ∧ x0 ≤ X ∧ X < x0 + 8) ∧
        (s.byteAt (s.i + (Y - y0))).getLsbD (7 - (X - x0)) = true := by
  rw [State.spriteBit, Bool.and_eq_true, decide_eq_true_eq]

/-- The sprite is read from memory at I, and from nothing else of the state. -/
theorem State.spriteBit_congr {s t : State} (hi : t.i = s.i) (hmem : s.sameMemory t) (x0 y0 n Y X : Nat) :
    t.spriteBit x0 y0 n Y X = s.spriteBit x0 y0 n Y X := by
  rw [State.spriteBit, State.spriteBit, hi, hmem _]

/-- The pixels of the screen that the sprite's rows from row `r` downward, `n` of them, draw. -/
def State.rowsMask (s : State) (x0 y0 r n Y X : Nat) : Bool :=
  decide (y0 + r ≤ Y ∧ Y < s.cfg.dispH ∧ X < s.cfg.dispW) && s.spriteBit x0 y0 (r + n) Y X

section

variable {s : State} {x0 y0 : Nat}

theorem State.rowsMask_iff {r n Y X : Nat} :
    s.rowsMask x0 y0 r n Y X = true ↔
      (y0 + r ≤ Y ∧ Y < y0 + (r + n) ∧ Y < s.cfg.dispH ∧ x0 ≤ X ∧ X < x0 + 8 ∧ X < s.cfg.dispW) ∧
        (s.byteAt (s.i + (Y - y0))).getLsbD (7 - (X - x0)) = true := by
  rw [State.rowsMask, Bool.and_eq_true, decide_eq_true_eq, State.spriteBit_iff]
  exact and_assoc.symm.trans (and_congr_left' (by omega))

/-- All the rows draw the sprite, clipped at both edges. -/
theorem State.rowsMask_zero (n Y X : Nat) :
    s.rowsMask x0 y0 0 n Y X =
      (decide (Y < s.cfg.dispH ∧ X < s.cfg.dispW) && s.spriteBit x0 y0 n Y X) := by
  rw [Bool.eq_iff_iff, State.rowsMask_iff, Bool.and_eq_true, decide_eq_true_eq, State.spriteBit_iff]
  exact (and_congr_left' (by omega)).trans and_assoc

/-- The first of the rows, on the screen, and the rows after it. -/
theorem State.rowsMask_succ_iff {r n Y X : Nat} (hrow : y0 + r < s.cfg.dispH) :
    s.rowsMask x0 y0 r (n + 1) Y X = true ↔
      rowMask s.cfg.dispW (s.byteAt (s.i + r)) x0 (y0 + r) 0 8 Y X = true ∨
        s.rowsMask x0 y0 (r + 1) n Y X = true := by
  by_cases hY : Y = y0 + r
  case pos =>
    subst hY
    rw [State.rowsMask_iff, rowMask_iff, State.rowsMask_iff, Nat.add_sub_cancel_left, ← or_and_right]
    exact and_congr_left' (by omega)
  case neg =>
    rw [or_iff_right fun hm => hY (rowMask_iff.mp hm).1.1, State.rowsMask_iff, State.rowsMask_iff]
    exact and_congr_left' (by omega)

theorem State.drawRows_of_clipped {r : Nat} (n : Nat) (c : Canvas) (h : s.cfg.dispH ≤ y0 + r) :
    s.drawRows x0 y0 n r c = .ok c := by
  cases n with
  | zero => rfl
  | succ n => rw [State.drawRows, if_neg (by omega)]

theorem State.drawRows_succ {r : Nat} (n : Nat) (c : Canvas) (hrow : y0 + r < s.cfg.dispH)
    (hmem : s.i + r < s.cfg.memSize) :
    s.drawRows x0 y0 (n + 1) r c =
      s.drawRows x0 y0 n (r + 1) (drawRow s.cfg.dispW (s.byteAt (s.i + r)) x0 (y0 + r) c) := by
  rw [State.drawRows, if_pos hrow, State.memRead_of_lt s hmem]

theorem State.drawRows_succ_of_outside {r : Nat} (n : Nat) (c : Canvas) (hrow : y0 + r < s.cfg.dispH)
    (hmem : s.cfg.memSize ≤ s.i + r) :
    s.drawRows x0 y0 (n + 1) r c = .error (.memOutOfBounds (s.i + r)) := by
  rw [State.drawRows, if_pos hrow, State.memRead_of_ge s hmem]

/-- Where every row drawn is inside memory, the rows draw their mask. -/
theorem State.drawRows_drawn (n r : Nat) (c : Canvas)
    (hmem : ∀ q, q < r + n → y0 + q < s.cfg.dispH → s.i + q < s.cfg.memSize) :
    ∃ d, s.drawRows x0 y0 n r c = .ok d ∧ Canvas.Drawn (s.rowsMask x0 y0 r n) c d := by
  induction n generalizing r c with
  | zero =>
    refine ⟨c, rfl, Canvas.Drawn.none (fun Y X hm => ?_) c⟩
    have hrow := (State.rowsMask_iff.mp hm).1
    omega
  | succ n ih =>
    by_cases hrow : y0 + r < s.cfg.dispH
    case pos =>
      obtain ⟨d, hd, hdrawn⟩ := ih (r + 1) _ fun q hq => hmem q (by omega)
      refine ⟨d, (State.drawRows_succ n c hrow (hmem r (by omega) hrow)).trans hd, ?_⟩
      refine (drawRow_drawn c).trans hdrawn (fun Y X hm hm' => ?_) fun _ _ => State.rowsMask_succ_iff hrow
      have hthis := (rowMask_iff.mp hm).1
      have hlater := (State.rowsMask_iff.mp hm').1
      omega
    case neg =>
      refine ⟨c, State.drawRows_of_clipped _ c (by omega), Canvas.Drawn.none (fun Y X hm => ?_) c⟩
      have hscreen := (State.rowsMask_iff.mp hm).1
      omega

/-- On a canvas with no collision yet, the flag says whether the clipped sprite meets a pixel that is on. -/
theorem Canvas.Drawn.hit_toNat {n : Nat} {d : Canvas}
    (h : Canvas.Drawn (s.rowsMask x0 y0 0 n) { fb := s.fb, hit := false } d) :
    d.hit.toNat = flagValue (∃ (Y : Fin s.cfg.dispH) (X : Fin s.cfg.dispW),
      s.spriteBit x0 y0 n Y X = true ∧ pixel s.fb Y X = true) := by
  rw [← toNat_decide_eq_flagValue]
  refine congrArg Bool.toNat ?_
  rw [Bool.eq_iff_iff, h.hit_iff, decide_eq_true_eq]
  simp only [State.rowsMask_zero, Bool.and_eq_true, decide_eq_true_eq]
  constructor
  · rintro (hfalse | ⟨Y, X, ⟨⟨hY, hX⟩, hbit⟩, hp⟩)
    · exact absurd hfalse Bool.false_ne_true
    · exact ⟨⟨Y, hY⟩, ⟨X, hX⟩, hbit, hp⟩
  · rintro ⟨Y, X, hbit, hp⟩
    exact .inr ⟨Y, X, ⟨⟨Y.isLt, X.isLt⟩, hbit⟩, hp⟩

/-- The first drawn row outside memory, `q`, is fatal with its address (R307). -/
theorem State.drawRows_outside {q : Nat} (n r : Nat) (c : Canvas) (hlo : r ≤ q) (hhi : q < r + n)
    (hrow : y0 + q < s.cfg.dispH) (hout : s.cfg.memSize ≤ s.i + q)
    (hmem : ∀ p, p < q → s.i + p < s.cfg.memSize) :
    s.drawRows x0 y0 n r c = .error (.memOutOfBounds (s.i + q)) := by
  induction n generalizing r c with
  | zero => omega
  | succ n ih =>
    rcases hlo.eq_or_lt with rfl | hlt
    · exact State.drawRows_succ_of_outside n c hrow hout
    · rw [State.drawRows_succ n c (by omega) (hmem r hlt)]
      exact ih (r + 1) _ hlt (by omega)

end

/-! ## DRW (R301, R302) -/

/-- The pixels that DXYN draws from `s`: the sprite at V[X] mod `DISP_W`, V[Y] mod `DISP_H`, clipped to the screen. -/
def State.spriteMask (s : State) (x y n : Nibble) (Y X : Nat) : Bool :=
  s.rowsMask (s.readV x % s.cfg.dispW) (s.readV y % s.cfg.dispH) 0 n.toNat Y X

theorem State.spriteMask_eq (s : State) (x y n : Nibble) (Y X : Nat) :
    s.spriteMask x y n Y X =
      (decide (Y < s.cfg.dispH ∧ X < s.cfg.dispW) &&
        s.spriteBit (s.readV x % s.cfg.dispW) (s.readV y % s.cfg.dispH) n.toNat Y X) :=
  State.rowsMask_zero _ _ _

section

variable {s : State} {x y n : Nibble}

theorem exec_drw (hrun : s.sequential ∨ (x ≠ flagReg ∧ y ≠ flagReg)) :
    exec (.drw x y n) s = .next (orAbort s (s.drawSprite x y n)) :=
  State.guardAlias_runs _ (State.runs_of_operands hrun)

theorem exec_drw_of_rows {d : Canvas} (hrun : s.sequential ∨ (x ≠ flagReg ∧ y ≠ flagReg))
    (h : s.drawRows (s.readV x % s.cfg.dispW) (s.readV y % s.cfg.dispH) n.toNat 0 { fb := s.fb, hit := false } =
      .ok d) :
    exec (.drw x y n) s = .next ((s.putFb d.fb).setFlag d.hit) := by
  rw [exec_drw hrun, State.drawSprite, h, orAbort]

theorem exec_drw_of_fatal {f : Fatal} (hrun : s.sequential ∨ (x ≠ flagReg ∧ y ≠ flagReg))
    (h : s.drawRows (s.readV x % s.cfg.dispW) (s.readV y % s.cfg.dispH) n.toNat 0 { fb := s.fb, hit := false } =
      .error f) :
    exec (.drw x y n) s = .next (s.raiseFatal f) := by
  rw [exec_drw hrun, State.drawSprite, h, orAbort]

end

/-! ## The statements of the family, settled -/

/-- Settles O25: the rows draw the mask of the clipped sprite on the framebuffer, with no collision to begin with. -/
theorem drawXorsTheSpriteAndSetsCollision : Obligations.DrawXorsTheSpriteAndSetsCollision := by
  rintro s x y n _ _ hwf hrun rfl rfl hmem
  obtain ⟨d, hd, hdrawn⟩ := State.drawRows_drawn n.toNat 0 { fb := s.fb, hit := false } (by simpa using hmem)
  have hread (r : Nibble) := State.readV_setFlag_of_wf (s := s.putFb d.fb) hwf d.hit r
  refine ⟨_, exec_drw_of_rows hrun hd, fun Y X => ?_, ?_, fun hfb => fbShaped_drawRows _ _ _ _ hfb hd,
    fun r hr => (hread r).trans (if_neg hr), rfl, fun _ => rfl⟩
  · rw [← State.rowsMask_zero]
    exact hdrawn.pixel_eq Y X
  · rw [hread, if_pos rfl, hdrawn.hit_toNat]

/-- Settles O26: the rows before it are drawn, and its own read is fatal. -/
theorem drawOutsideMemoryAborts : Obligations.DrawOutsideMemoryAborts := by
  intro s x y n r hrun hr hrow hout hmem
  rw [exec_drw_of_fatal hrun (State.drawRows_outside _ 0 _ (Nat.zero_le r) (by omega) hrow hout hmem)]
  exact abortsWith_raiseFatal s _

/-- A draw after which the session runs has read no row outside memory: the first such row would have aborted it. -/
theorem drawn_rows_in_memory {s t : State} {x y n : Nibble} (hrun : s.sequential ∨ (x ≠ flagReg ∧ y ≠ flagReg))
    (h : exec (.drw x y n) s = .next t) (ht : t.status = .running) {r : Nat} (hr : r < n.toNat)
    (hrow : s.readV y % s.cfg.dispH + r < s.cfg.dispH) : s.i + r < s.cfg.memSize := by
  by_contra hout
  obtain ⟨t', h', hstatus, _⟩ := drawOutsideMemoryAborts s x y n (s.cfg.memSize - s.i) hrun (by omega) (by omega)
    (by omega) (fun q hq => by omega)
  obtain rfl := Host.Outcome.next.inj (h'.symm.trans h)
  exact nomatch ht.symm.trans hstatus

/-- DRW in a state that agrees with `s` on all it reads but the screen draws the sprite of `s`: VF is 1 where the
sprite meets a pixel that is on. -/
theorem exec_drw_of_agree {s r : State} {x y n : Nibble} (hwf : s.cfg.Wf) (hrun : x ≠ flagReg ∧ y ≠ flagReg)
    (hcfg : r.cfg = s.cfg) (hi : r.i = s.i) (hreg : ∀ q, q ≠ flagReg → r.readV q = s.readV q)
    (hmem : s.sameMemory r)
    (hrows : ∀ q, q < n.toNat → s.readV y % s.cfg.dispH + q < s.cfg.dispH → s.i + q < s.cfg.memSize) :
    ∃ u, exec (.drw x y n) r = .next u ∧ u.status = r.status ∧
      (∀ Y X, pixel u.fb Y X = (pixel r.fb Y X ^^ s.spriteMask x y n Y X)) ∧
      (∀ Y X, s.spriteMask x y n Y X = true → pixel r.fb Y X = true → u.readV flagReg = 1) ∧
      (fbShaped s.cfg r.fb → fbShaped s.cfg u.fb) := by
  have hbit := State.spriteBit_congr hi hmem
  obtain ⟨u, hu, hpix, hflag, hshape, -, hframe, -⟩ :=
    drawXorsTheSpriteAndSetsCollision r x y n (s.readV x % s.cfg.dispW) (s.readV y % s.cfg.dispH) (hcfg ▸ hwf)
      (.inr hrun) (by rw [hreg x hrun.1, hcfg]) (by rw [hreg y hrun.2, hcfg]) (by rwa [hcfg, hi])
  refine ⟨u, hu, by rw [hframe], fun Y X => ?_, fun Y X hset hon => ?_, by rwa [hcfg] at hshape⟩
  · rw [hpix, hbit, hcfg, State.spriteMask_eq]
  · rw [State.spriteMask_eq, Bool.and_eq_true, decide_eq_true_eq] at hset
    obtain ⟨⟨hY, hX⟩, hset⟩ := hset
    rw [hflag]
    exact if_pos ⟨⟨Y, by rwa [hcfg]⟩, ⟨X, by rwa [hcfg]⟩, (hbit _ _ _ _ _).trans hset, hon⟩

/-- Settles O27: both draws XOR the sprite of the first state, so a pixel that the first has turned on meets it
again. -/
theorem drawingTwiceRestoresTheScreen : Obligations.DrawingTwiceRestoresTheScreen := by
  intro s t u x y n p hwf hx hy _ hdraw ht hagain
  have hrun : x ≠ flagReg ∧ y ≠ flagReg := ⟨hx, hy⟩
  have hrows := fun q => drawn_rows_in_memory (.inr hrun) hdraw ht (r := q)
  obtain ⟨t', ht', htpix, htflag, htshape, htreg, htframe, htmem⟩ :=
    drawXorsTheSpriteAndSetsCollision s x y n _ _ hwf (.inr hrun) rfl rfl hrows
  obtain rfl := Host.Outcome.next.inj (ht'.symm.trans hdraw)
  simp only [← State.spriteMask_eq] at htpix
  obtain ⟨u', hu', hustatus, hupix, huflag, hushape⟩ :=
    exec_drw_of_agree (r := { t' with pc := p }) hwf hrun (by rw [htframe]) (by rw [htframe]) htreg htmem hrows
  obtain rfl := Host.Outcome.next.inj (hu'.symm.trans hagain)
  have hsame (Y X : Nat) : pixel u'.fb Y X = pixel s.fb Y X := by
    rw [hupix, htpix, Bool.xor_assoc, Bool.xor_self, Bool.xor_false]
  refine ⟨hustatus.trans ht, hsame, fun hs => fb_ext (hushape (htshape hs)) hs hsame, ?_, fun hdark => ?_⟩
  · rintro ⟨Y, X, hoff, hon⟩
    have hset := htpix Y X
    rw [hoff, hon, Bool.false_xor] at hset
    exact huflag Y X hset.symm hon
  · rw [htflag]
    exact if_neg fun ⟨Y, X, _, hp⟩ => absurd (hp.symm.trans (hdark Y X)) (by decide)

/-- Settles O24: the blank screen has no pixel on. -/
theorem clsTurnsEveryPixelOff : Obligations.ClsTurnsEveryPixelOff :=
  fun s => ⟨s.putFb (blankFb s.cfg), rfl, pixel_blankFb s.cfg, fbShaped_blankFb s.cfg, rfl, fun _ => rfl⟩

end Sys2Proof.Machine

/-! # The unimplemented opcode (43_unimplemented.md R340 to R342): UNIMPL in every state, and the step at a word of
R107 -/

namespace Sys2Proof.Machine

/-- UNIMPL answers the state with its one event reported (R340). -/
theorem exec_unimpl (w : Word) (s : State) :
    exec (.unimpl w) s = .next (s.report (.unimplementedOpcode s.instrAddr w)) := rfl

/-- A report leaves memory as it is (R404). -/
theorem State.sameMemory_report (r : Report) (s : State) : s.sameMemory (s.report r) := fun _ => rfl

/-- After the fetch has moved pc past the word at `a`, the executing instruction's address is `a` (R34). -/
theorem State.instrAddr_of_advance (a : Nat) (s : State) : { s with pc := a + 2 }.instrAddr = a :=
  Nat.add_sub_cancel a 2

/-! ## The statements of the family, settled -/

/-- Settles O29: the answer is the state with the event reported, and a report appends to the log alone. -/
theorem unimplOnlyReports : Obligations.UnimplOnlyReports :=
  fun s w => ⟨_, exec_unimpl w s, rfl, s.sameMemory_report _⟩

/-- Settles O28: the fetched word decodes to UNIMPL, which runs with pc past it and reports the address that the
fetch left behind. -/
theorem unimplementedWordIsReportedAndSkipped : Obligations.UnimplementedWordIsReportedAndSkipped := by
  intro s t w hwf hlive hnext hadv hword hunimpl
  have hreports : t.reports = s.reports := by rw [hnext.frame]
  have hdecode : decode s.cfg.extEF (wordOfBytes (s.byteAt s.pc) (s.byteAt (s.pc + 1))) = .unimpl w :=
    (congrArg (decode s.cfg.extEF) hword.symm).trans (decode_of_isUnimplWord hunimpl)
  rw [step_runs_fetched_word hwf hlive hnext hadv, hdecode, exec_unimpl, State.instrAddr_of_advance, ← hreports]
  rfl

end Sys2Proof.Machine

/-! # The extension (44_ext_EF.md R361 to R371): the keys, the timers, I, and the moves between V and memory

Lemmas first, each about one operation of the model; the statements of the family are settled at the end. -/

namespace Sys2Proof.Machine

section

variable {s t : State} {i : Instr} {x : Nibble} {keys : KeySet}

/-! ## A poll, and the skip on what it answers (R361, R362, R417) -/

/-- A poll leaves all but the host's answers and the number of the next free value. -/
theorem State.pollKeys_eq_with (h : s.pollKeys = (keys, t)) :
    t = { s with keyPolls := t.keyPolls, free := t.free } := by
  have := s.pollKeys_frame
  rwa [h] at this

@[simp] theorem State.pollKeys_cfg (s : State) : s.pollKeys.2.cfg = s.cfg := by rw [s.pollKeys_frame]

@[simp] theorem State.pollKeys_mem (s : State) : s.pollKeys.2.mem = s.mem := by rw [s.pollKeys_frame]

/-- An instruction that is a poll and then a conditional skip: taken, not taken, or taken out of range. -/
theorem skips_after_poll {b : Bool} (hwf : s.cfg.Wf) (hpoll : s.pollKeys = (keys, t))
    (h : exec i s = .next (t.skipIf b)) :
    (b = true → s.cfg.pcOk (s.pc + 2) → exec i s = .next { t with pc := s.pc + 2 } ∧ t.mem = s.mem) ∧
    (b = true → ¬s.cfg.pcOk (s.pc + 2) → abortsWith (exec i s) (.pcOutOfRange (s.pc + 2)) s) ∧
    (b = false → exec i s = .next t ∧ t.pc = s.pc ∧ t.mem = s.mem) := by
  rw [h, State.pollKeys_eq_with hpoll]
  refine ⟨?_, ?_, ?_⟩ <;> rintro rfl
  · intro hv
    exact ⟨congrArg Host.Outcome.next (State.setPC_eq (s := { s with keyPolls := _, free := _ }) hwf hv), rfl⟩
  · exact fun hv => abortsWith_setPC (s := { s with keyPolls := _, free := _ }) hv
  · exact ⟨rfl, rfl, rfl⟩

theorem exec_skp_of_le (hpoll : s.pollKeys = (keys, t)) (hx : s.readV x ≤ 15) :
    exec (.skp x) s = .next (t.skipIf (keys.getLsbD (s.readV x))) := by
  show execSkp x s = _
  rw [execSkp, if_neg (Nat.not_lt.mpr hx), hpoll]

theorem exec_sknp_of_le (hpoll : s.pollKeys = (keys, t)) (hx : s.readV x ≤ 15) :
    exec (.sknp x) s = .next (t.skipIf (!keys.getLsbD (s.readV x))) := by
  show execSknp x s = _
  rw [execSknp, if_neg (Nat.not_lt.mpr hx), hpoll]

/-! ## The lowest pressed key (R364) -/

theorem lowestKey_eq_some {k : Nat} (hk : k < 16) (hset : keys.getLsbD k = true)
    (hlow : ∀ j, j < k → keys.getLsbD j = false) : lowestKey keys = some k := by
  cases h : lowestKey keys with
  | none =>
    rw [lowestKey_none.mp h, BitVec.getLsbD_zero] at hset
    exact nomatch hset
  | some j =>
    obtain ⟨-, hj, hjlow⟩ := lowestKey_some h
    rcases Nat.lt_trichotomy j k with hlt | rfl | hlt
    · exact nomatch hj.symm.trans (hlow j hlt)
    · rfl
    · exact nomatch hset.symm.trans (hjlow k hlt)

theorem exec_ldVxK_of_key {k : Nat} (h : lowestKey s.pollKeys.1 = some k) :
    exec (.ldVxK x) s = .next (s.pollKeys.2.writeV x k) := by
  show execLdVxK x s = _
  rw [execLdVxK, h]

/-- With no key pressed pc goes back to the instruction's own address. -/
theorem exec_ldVxK_of_none (hwf : s.cfg.Wf) (hpc : s.cfg.pcOk s.instrAddr) (h : lowestKey s.pollKeys.1 = none) :
    exec (.ldVxK x) s = .next { s.pollKeys.2 with pc := s.instrAddr } := by
  rw [← s.pollKeys_cfg] at hwf hpc
  show execLdVxK x s = _
  rw [execLdVxK, h, State.setPC_eq hwf hpc]

/-! ## An instruction that is one write to I (R367, R368) -/

theorem exec_writes_index {n : Nat} (h : exec i s = .next (s.writeI n)) :
    ∃ t, exec i s = .next t ∧ t.i = n % 2 ^ s.cfg.iWidth ∧ t = { s with i := t.i } ∧ s.sameMemory t :=
  ⟨_, h, rfl, rfl, fun _ => rfl⟩

/-! ## Blocks of bytes in memory (R369 to R371) -/

theorem toNat_u8 (n : Nat) : (u8 n).toNat = n % 256 := BitVec.toNat_ofNat n 8

/-- I after a block move, in the words of R370 and R371. -/
theorem State.bumpI_i (s : State) (x : Nibble) :
    (s.bumpI x).i =
      if s.cfg.quirkLoadStoreI = .unchanged then s.i else (s.i + x.toNat + 1) % 2 ^ s.cfg.iWidth := by
  rcases s.bumpI_cases x with ⟨hq, e⟩ | ⟨hq, e⟩ <;> rw [e, hq]
  · exact (if_pos rfl).symm
  · exact (if_neg nofun).symm

theorem exec_ldB_of_lt (h : s.i + 2 < s.cfg.memSize) :
    exec (.ldB x) s = .next { s with mem := s.mem.writeBytes s.i (bcdDigits (s.readV x)) } := by
  show execLdB x s = _
  rw [execLdB, s.memWriteList_ok s.i (bcdDigits (s.readV x)) h, orAbort]

theorem exec_ldB_of_ge (h : s.cfg.memSize ≤ s.i + 2) :
    exec (.ldB x) s = .next (s.raiseFatal (.memOutOfBounds (max s.i s.cfg.memSize))) := by
  show execLdB x s = _
  rw [execLdB, s.memWriteList_error s.i (bcdDigits (s.readV x)) (Nat.lt_succ_of_le h) (List.cons_ne_nil _ _), orAbort]

theorem exec_storeRegs_of_lt (h : s.i + x.toNat < s.cfg.memSize) :
    exec (.storeRegs x) s = .next (State.bumpI x { s with mem := s.mem.writeBytes s.i (s.firstRegs x) }) := by
  show execStoreRegs x s = _
  rw [execStoreRegs, s.memWriteList_ok s.i (s.firstRegs x) (by rw [s.firstRegs_length]; omega)]
  rfl

/-- The first store outside memory aborts, before I moves. -/
theorem exec_storeRegs_of_ge (h : s.cfg.memSize ≤ s.i + x.toNat) :
    exec (.storeRegs x) s = .next (s.raiseFatal (.memOutOfBounds (max s.i s.cfg.memSize))) := by
  have hlen := s.firstRegs_length x
  show execStoreRegs x s = _
  rw [execStoreRegs, s.memWriteList_error s.i (s.firstRegs x) (by omega) (List.ne_nil_of_length_pos (by omega))]
  rfl

theorem exec_loadRegs_of_ok (h : s.loadRegsFrom s.i (x.toNat + 1) 0 = .ok t) :
    exec (.loadRegs x) s = .next (t.bumpI x) := by
  show execLoadRegs x s = _
  rw [execLoadRegs, h]
  rfl

/-- The first load from outside memory aborts, before I moves. -/
theorem exec_loadRegs_of_ge (h : s.cfg.memSize ≤ s.i + x.toNat) :
    exec (.loadRegs x) s = .next (s.raiseFatal (.memOutOfBounds (max s.i s.cfg.memSize))) := by
  show execLoadRegs x s = _
  rw [execLoadRegs, s.loadRegsFrom_error s.i (x.toNat + 1) 0 (Nat.succ_ne_zero _) (Nat.lt_succ_of_le h)]
  rfl

end

/-! ## The statements of the family, settled -/

/-- Settles O30: SKP skips on what the poll answers, SKNP on its negation. -/
theorem keySkipsPollTheNamedKey : Obligations.KeySkipsPollTheNamedKey := by
  rintro s t x keys pressed hwf hpoll rfl
  refine ⟨fun hx => ⟨if_pos hx, if_pos hx⟩, fun hx => ?_, State.pollKeys_eq_with hpoll⟩
  obtain ⟨hskip, hout, hstay⟩ := skips_after_poll hwf hpoll (exec_skp_of_le hpoll hx)
  obtain ⟨hnskip, hnout, hnstay⟩ := skips_after_poll hwf hpoll (exec_sknp_of_le hpoll hx)
  rw [Bool.not_eq_true'] at hnskip hnout
  rw [Bool.not_eq_false'] at hnstay
  exact ⟨hskip, hout, hstay, hnskip, hnout, hnstay⟩

/-- Settles O32: a key fits into V[X], and with none pressed the address of the instruction is a legal pc. -/
theorem keyWaitTakesTheLowestKeyOrRepeats : Obligations.KeyWaitTakesTheLowestKeyOrRepeats := by
  intro s x hwf
  refine ⟨fun k hk hset hlow => ?_, fun hnone hpc hok => ?_⟩
  · have hkey : k < 2 ^ s.cfg.vWidth :=
      Nat.lt_of_lt_of_le (Nat.lt_trans hk (by decide)) (Nat.pow_le_pow_right (by decide) hwf.vWidth)
    refine ⟨_, exec_ldVxK_of_key (lowestKey_eq_some hk hset hlow), ?_⟩
    rw [s.pollKeys_frame]
    exact ⟨(State.readV_writeV_same _ x k).trans (keepBits_of_lt hkey), fun r hr => State.readV_writeV_other _ k hr,
      rfl, fun _ => rfl⟩
  · have haddr : s.cfg.pcOk s.instrAddr := Nat.le_trans (Nat.add_le_add_right (Nat.sub_le s.pc 2) 2) hok
    exact ⟨_, exec_ldVxK_of_none hwf haddr (lowestKey_none.mpr hnone), Nat.sub_add_cancel hpc, rfl,
      State.sameMemory_of_mem s.pollKeys_mem⟩

/-- Settles O35: the three digits are a block of three bytes at I. -/
theorem bcdStoresThreeDigits : Obligations.BcdStoresThreeDigits := by
  intro s x hmem
  refine ⟨fun hlt => ?_, fun hge => ?_⟩
  · have hdigit {k : Nat} (hk : k < 3) :=
      congrArg BitVec.toNat (Memory.read_writeBytes_inside s.i (bcdDigits (s.readV x)) hmem hk)
    refine ⟨_, exec_ldB_of_lt hlt, ?_, rfl, Memory.wf_writeBytes s.i _ hmem⟩
    rintro _ rfl
    refine ⟨?_, ?_, ?_, fun b hb => Memory.read_writeBytes_outside s.mem s.i _ hb⟩
    · exact (hdigit (k := 0) (by decide)).trans (toNat_u8 _)
    · exact ((hdigit (k := 1) (by decide)).trans (toNat_u8 _)).trans (by omega)
    · exact ((hdigit (k := 2) (by decide)).trans (toNat_u8 _)).trans (by omega)
  · rw [exec_ldB_of_ge hge]
    exact abortsWith_raiseFatal s _

/-- Settles O36: the registers are a block of X + 1 bytes at I, and moving I leaves memory. -/
theorem storeRegistersWritesTheBlock : Obligations.StoreRegistersWritesTheBlock := by
  intro s x hmem
  refine ⟨fun hlt => ?_, fun hge => ?_⟩
  · have hrun := exec_storeRegs_of_lt hlt
    refine ⟨_, hrun, ?_, State.bumpI_i _ x, by rw [State.bumpI_frame], ?_⟩
    · rintro _ rfl
      refine ⟨fun r hr => ?_, fun b hb => ?_⟩
      · rw [exec_storeRegs_byteAt hmem hlt hrun hr, BitVec.ofNat_toNat, BitVec.setWidth_eq, toNat_u8]
      · rw [exec_storeRegs_frame hlt hrun]
        exact Memory.read_writeBytes_outside s.mem s.i _ (by rw [s.firstRegs_length]; omega)
    · rw [exec_storeRegs_frame hlt hrun]
      exact Memory.wf_writeBytes s.i _ hmem
  · rw [exec_storeRegs_of_ge hge]
    exact abortsWith_raiseFatal s _

/-- Settles O37: a byte fits into V, and moving I leaves V and memory. -/
theorem loadRegistersReadsTheBlock : Obligations.LoadRegistersReadsTheBlock := by
  intro s x hwf
  refine ⟨fun hlt => ?_, fun hge => ?_⟩
  · obtain ⟨t, ht, hframe, hread⟩ := s.loadRegsFrom_ok s.i (x.toNat + 1) 0 (by omega) (.inr (by omega))
    obtain ⟨v, rfl⟩ : ∃ v, t = { s with v := v } := ⟨_, hframe⟩
    refine ⟨_, exec_loadRegs_of_ok ht, fun r hr => ?_, fun r hr => ?_, State.bumpI_i _ x, ?_, ?_⟩ <;>
      rw [State.bumpI_frame]
    · exact ((hread r).trans (if_pos (by omega))).trans (keepBits_of_lt (hwf.byte_lt _))
    · exact (hread r).trans (if_neg (by omega))
    · exact fun _ => rfl
  · rw [exec_loadRegs_of_ge hge]
    exact abortsWith_raiseFatal s _

/-- Settles O33: each is one write to V or to a timer. -/
theorem timerMovesCopyOneByte : Obligations.TimerMovesCopyOneByte := by
  intro s x
  refine ⟨⟨_, rfl, s.readV_writeV_same x s.dt, s.onlyRegsChange_writeV x s.dt⟩, ⟨_, rfl, rfl, fun _ => rfl⟩,
    ⟨_, rfl, rfl, fun _ => rfl⟩, fun hwidths hw => ⟨?_, ?_⟩⟩
  · exact Nat.mod_eq_of_lt (hw ▸ hwidths.dt)
  · exact Nat.mod_eq_of_lt (hw ▸ hwidths.readV_lt x)

/-- Settles O34: each is one write to I. -/
theorem indexAddWrapsAndGlyphsAreFiveBytes : Obligations.IndexAddWrapsAndGlyphsAreFiveBytes :=
  fun _ _ => ⟨exec_writes_index rfl, exec_writes_index rfl⟩

end Sys2Proof.Machine

/-! # Exceptions and the host interface (60_exceptions.md R402 to R417): the ticks, the poll of the keys, the end of a
session, and the one condition of a cycle

Lemmas first, each about one operation of the model; the statements of the family are settled at the end. -/

namespace Sys2Proof.Machine

section

variable {s t : State}

/-! ## The operation that the host takes (R402, R414) -/

/-- A step of a live session is the operation that the host takes. -/
theorem step_of_takeOp {op : HostOp} (hlive : s.live) (h : s.takeOp = (op, t)) : step s = t.hostOp op := by
  obtain ⟨hstatus, hended⟩ := hlive
  rw [step, State.guardedOp, hstatus, hended, State.nextOp, h]
  rfl

theorem step_of_aborted {f : Fatal} (h : s.status = .aborted f) : step s = .fault (.sessionAborted f) := by
  rw [step, State.guardedOp, h]

theorem step_of_ended (hstatus : s.status = .running) (hended : s.ended = true) : step s = .fault .sessionEnded := by
  rw [step, State.guardedOp, hstatus, hended]
  rfl

/-! ## A poll of the keys (R417) -/

theorem State.pollKeys_of_cons {keys : KeySet} {rest : List KeySet} (h : s.keyPolls = keys :: rest) :
    s.pollKeys = (keys, { s with keyPolls := rest }) := by
  rw [State.pollKeys, h]

theorem State.pollKeys_of_nil (h : s.keyPolls = []) :
    s.pollKeys = (Config.hostKeys s.free, { s with free := s.free + 1 }) := by
  rw [State.pollKeys, h]

/-! ## One tick (R410, R411) -/

/-- The host operation that ticks a timer (R410). -/
def Timer.tickOp : Timer → HostOp
  | .delay => .tickDelay
  | .sound => .tickSound

theorem State.hostOp_tickOp (k : Timer) (s : State) : s.hostOp k.tickOp = .next (s.tick k) := by
  cases k <;> rfl

theorem State.timer_writeTimer_same (k : Timer) (n : Nat) (s : State) :
    (s.writeTimer k n).timer k = keepBits s.cfg.timerWidth n := by
  cases k <;> rfl

theorem State.timer_writeTimer_other {j k : Timer} (n : Nat) (s : State) (h : j ≠ k) :
    (s.writeTimer k n).timer j = s.timer j := by
  cases k <;> cases j
  case delay.delay | sound.sound => exact absurd rfl h
  case delay.sound | sound.delay => rfl

theorem State.reports_writeTimer (k : Timer) (n : Nat) (s : State) : (s.writeTimer k n).reports = s.reports := by
  cases k <;> rfl

@[simp] theorem State.timer_report (k : Timer) (r : Report) (s : State) : (s.report r).timer k = s.timer k := by
  cases k <;> rfl

@[simp] theorem State.timer_takeOp (k : Timer) (s : State) : s.takeOp.2.timer k = s.timer k := by
  rw [s.takeOp_frame]
  cases k <;> rfl

theorem State.InWidths.report (h : s.InWidths) (r : Report) : (s.report r).InWidths := { h with }

theorem State.InWidths.tick (h : s.InWidths) (k : Timer) : (s.tick k).InWidths := by
  rcases s.tick_cases k with ⟨_, e⟩ | ⟨_, e⟩ <;> rw [e]
  · exact h.report _
  · exact h.writeTimer k _

/-- What a timer counts down to fits into it. -/
theorem State.InWidths.timer_writeTimer_pred (h : s.InWidths) (k : Timer) :
    (s.writeTimer k (s.timer k - 1)).timer k = s.timer k - 1 := by
  rw [State.timer_writeTimer_same]
  exact keepBits_of_lt (Nat.lt_of_le_of_lt (Nat.sub_le _ _) (h.timer_lt k))

/-- A tick takes one from its timer, where there is one to take. -/
theorem State.InWidths.timer_tick (h : s.InWidths) (k : Timer) : (s.tick k).timer k = s.timer k - 1 := by
  rcases s.tick_cases k with ⟨h0, e⟩ | ⟨_, e⟩ <;> rw [e]
  · rw [State.timer_report, h0]
  · exact h.timer_writeTimer_pred k

theorem State.timer_tick_other {j k : Timer} (s : State) (h : j ≠ k) : (s.tick k).timer j = s.timer j := by
  rcases s.tick_cases k with ⟨_, e⟩ | ⟨_, e⟩ <;> rw [e]
  · exact s.timer_report j _
  · exact s.timer_writeTimer_other _ h

/-- A tick reports TIMER_IDLE once at 0, and else not at all. -/
theorem State.reports_tick (k : Timer) (s : State) :
    (s.tick k).reports = s.reports ++ List.replicate (1 - s.timer k) (.timerIdle k) := by
  rcases s.tick_cases k with ⟨h0, e⟩ | ⟨hpos, e⟩ <;> rw [e]
  · rw [h0]
    rfl
  · rw [State.reports_writeTimer, Nat.sub_eq_zero_of_le (Nat.one_le_iff_ne_zero.mpr hpos), List.replicate_zero,
      List.append_nil]

/-! ## The step that ticks a timer (R410; log 9) -/

@[simp] theorem State.takeOp_reports (s : State) : s.takeOp.2.reports = s.reports := by rw [s.takeOp_frame]

theorem State.InWidths.takeOp (h : s.InWidths) : s.takeOp.2.InWidths := by
  rw [s.takeOp_frame]
  exact { h with }

theorem step_of_tickOp {k : Timer} (hlive : s.live) (h : s.takeOp = (k.tickOp, t)) : step s = .next (t.tick k) :=
  (step_of_takeOp hlive h).trans (t.hostOp_tickOp k)

/-- Above 0 the step lowers the timer by one: the operation taken leaves the timer as it was. -/
theorem step_counts_down {k : Timer} (hwidths : s.InWidths) (hlive : s.live) (h : s.takeOp = (k.tickOp, t))
    (hpos : 0 < s.timer k) :
    step s = .next (t.writeTimer k (s.timer k - 1)) ∧ (t.writeTimer k (s.timer k - 1)).timer k + 1 = s.timer k := by
  rw [step_of_tickOp hlive h]
  obtain rfl : s.takeOp.2 = t := by rw [h]
  rw [← s.timer_takeOp k] at hpos ⊢
  rw [hwidths.takeOp.timer_writeTimer_pred k]
  exact ⟨congrArg _ (if_neg hpos.ne'), Nat.sub_add_cancel hpos⟩

/-- At 0 the step reports TIMER_IDLE (R411). -/
theorem step_reports_idle {k : Timer} (hlive : s.live) (h : s.takeOp = (k.tickOp, t)) (hzero : s.timer k = 0) :
    step s = .next { t with reports := s.reports ++ [.timerIdle k] } := by
  rw [step_of_tickOp hlive h]
  obtain rfl : s.takeOp.2 = t := by rw [h]
  rw [← s.timer_takeOp k] at hzero
  rw [← s.takeOp_reports]
  exact congrArg _ (if_pos hzero)

/-! ## One cycle (R405) -/

/-- An instruction leaves the log, or reports once and leaves the status; in an abort it leaves the log. -/
theorem exec_reports {i : Instr} (h : exec i s = .next t) :
    t.reports = s.reports ∨ (t.status = s.status ∧ ∃ r, t.reports = s.reports ++ [r]) := by
  rcases exec_next h with he | ⟨f, u, rfl, _, _, hreports, _⟩
  · exact he.reports.imp_right fun hr => ⟨he.status, hr⟩
  · exact .inl hreports

end

/-! ## The statements of the family, settled -/

/-- Settles O38, at a value above 0 and at 0, for each timer. -/
theorem tickCountsDownOrReportsIdle : Obligations.TickCountsDownOrReportsIdle := by
  intro s t hwidths hlive
  refine ⟨fun h => ⟨fun hpos => ?_, step_reports_idle (k := .delay) hlive h⟩,
    fun h => ⟨fun hpos => ?_, step_reports_idle (k := .sound) hlive h⟩⟩
  · obtain ⟨hstep, hdown⟩ := step_counts_down (k := .delay) hwidths hlive h hpos
    exact ⟨_, hstep, hdown, rfl⟩
  · obtain ⟨hstep, hdown⟩ := step_counts_down (k := .sound) hwidths hlive h hpos
    exact ⟨_, hstep, hdown, rfl⟩

/-- Settles O39, by induction on the number of ticks, the first of them taken apart. -/
theorem repeatedTicksStopAtZero : Obligations.RepeatedTicksStopAtZero := by
  intro n k s hwidths
  induction n generalizing s with
  | zero => exact ⟨rfl, by rw [Nat.zero_sub]; exact (List.append_nil _).symm, fun _ _ => rfl⟩
  | succ n ih =>
    obtain ⟨htimer, hreports, hother⟩ := ih (s.tick k) (hwidths.tick k)
    have hcount : 1 - s.timer k + (n - (s.timer k - 1)) = n + 1 - s.timer k := by omega
    rw [Function.iterate_succ_apply]
    refine ⟨?_, ?_, fun j hj => (hother j hj).trans (s.timer_tick_other hj)⟩
    · rw [htimer, hwidths.timer_tick, Nat.sub_sub, Nat.add_comm]
    · rw [hreports, hwidths.timer_tick, State.reports_tick, List.append_assoc, List.replicate_append_replicate, hcount]

/-- Settles O54: a fetch reports nothing, and the instruction that it runs reports at most once. -/
theorem oneCycleRaisesAtMostOneCondition : Obligations.OneCycleRaisesAtMostOneCondition := by
  intro s t hstatus h
  rcases cycle_next h with ⟨f, _, rfl⟩ | ⟨_, he⟩
  · exact .inl (s.raiseFatal_reports f)
  · exact (exec_reports he).imp_right fun ⟨hsame, hr⟩ => ⟨hsame.trans hstatus, hr⟩

/-- Settles O31: a case for each state of the host's answers. -/
theorem pollGivesTheHostsAnswer : Obligations.PollGivesTheHostsAnswer :=
  fun _ => ⟨fun _ _ h => State.pollKeys_of_cons h, fun h => congrArg Prod.snd (State.pollKeys_of_nil h)⟩

/-- Settles O40: the guard of `step` answers the two faults, and Shutdown is the operation taken. -/
theorem noOperationAfterAbortOrShutdown : Obligations.NoOperationAfterAbortOrShutdown :=
  ⟨fun _ _ h => step_of_aborted h, fun _ hstatus hended => step_of_ended hstatus hended,
    fun _ _ hlive h => step_of_takeOp hlive h⟩

end Sys2Proof.Machine

/-! # Reset and hazards (70_reset_and_hazards.md R500 to R511): Construct, the host's order of operations, and the
timers, which no cycle of the minimum core reads

Lemmas first, each about one operation of the model; the statements of the family are settled at the end. -/

namespace Sys2Proof

/-- A program fits when it ends inside memory (R503). -/
theorem Config.Wf.le_programMax_iff {cfg : Config} (hwf : cfg.Wf) {n : Nat} :
    n ≤ cfg.programMax ↔ cfg.loadOffset + n ≤ cfg.memSize := by
  have hload := hwf.loadOffset
  unfold Config.pcOk at hload
  unfold Config.programMax
  omega

end Sys2Proof

namespace Sys2Proof.Machine

/-! ## The memory of a construction (R501, steps 3 to 5) -/

section

variable {cfg : Config} {font : List Nat} {program : List Byte}

theorem fontOk_iff : fontOk cfg font = true ↔ font.length = cfg.fontLen ∧ ∀ k ∈ font, k < 256 := by
  simp [fontOk]

theorem wf_emptyMem (cfg : Config) : Memory.wf (emptyMem cfg) = true := by
  unfold emptyMem
  split
  · exact Memory.wf_writeBytes _ _ rfl
  · exact Memory.wf_fill _ _

theorem within_emptyMem (cfg : Config) : Memory.within cfg.memSize (emptyMem cfg) = true := by
  unfold emptyMem
  split
  · exact Memory.within_writeBytes _ _ rfl (by simp)
  · exact Memory.within_fill _ _

/-- Under `Zero` the bytes that unlisted memory would read as the default font are 0x00 too (D3). -/
theorem read_emptyMem_of_zero (hzero : cfg.resetFill = .zero) {a : Nat}
    (ha : a < cfg.memSize ∨ defaultFont.length ≤ a) :
    (emptyMem cfg).read a = 0#8 := by
  rw [emptyMem, hzero]
  rcases Nat.lt_or_ge a defaultFont.length with hfont | hfont
  · have hk : a < (List.replicate (min defaultFont.length cfg.memSize) 0#8).length := by
      rw [List.length_replicate]; omega
    have hread := Memory.read_writeBytes_inside (m := []) 0 _ rfl hk
    rwa [Nat.zero_add, List.getElem_replicate] at hread
  · rw [Memory.read_writeBytes_outside _ _ _ (by rw [List.length_replicate]; omega)]
    exact List.getD_eq_default _ _ hfont

theorem wf_constructMem (cfg : Config) (font : List Nat) (program : List Byte) :
    Memory.wf (constructMem cfg font program) = true :=
  Memory.wf_writeBytes _ _ (Memory.wf_writeBytes _ _ (wf_emptyMem cfg))

/-- The font lies below the load offset, and the program fits above it, so nothing is loaded past the end. -/
theorem within_constructMem (hwf : cfg.Wf) (hfont : font.length = cfg.fontLen)
    (hfit : cfg.loadOffset + program.length ≤ cfg.memSize) :
    Memory.within cfg.memSize (constructMem cfg font program) = true := by
  have hbelow := hwf.font
  refine Memory.within_writeBytes _ _ (Memory.within_writeBytes _ _ (within_emptyMem cfg) ?_) hfit
  rw [List.length_map]
  omega

theorem read_constructMem_program {k : Nat} (hk : k < program.length) :
    (constructMem cfg font program).read (cfg.loadOffset + k) = program[k] :=
  Memory.read_writeBytes_inside _ _ (Memory.wf_writeBytes _ _ (wf_emptyMem cfg)) hk

/-- The program, above the font, leaves it as it was loaded. -/
theorem read_constructMem_font (hwf : cfg.Wf) (hfont : font.length = cfg.fontLen) {k : Nat} (hk : k < font.length) :
    (constructMem cfg font program).read (cfg.fontBase + k) = BitVec.ofNat 8 font[k] := by
  have hbelow := hwf.font
  rw [constructMem, Memory.read_writeBytes_outside _ _ _ (by omega),
    Memory.read_writeBytes_inside _ _ (wf_emptyMem cfg) (by rwa [List.length_map]), List.getElem_map]

theorem read_constructMem_other (hfont : font.length = cfg.fontLen) {a : Nat}
    (hf : a < cfg.fontBase ∨ cfg.fontBase + cfg.fontLen ≤ a)
    (hp : a < cfg.loadOffset ∨ cfg.loadOffset + program.length ≤ a) :
    (constructMem cfg font program).read a = (emptyMem cfg).read a := by
  rw [constructMem, Memory.read_writeBytes_outside _ _ _ hp,
    Memory.read_writeBytes_outside _ _ _ (by rwa [List.length_map, hfont])]

/-- With the default font and no program every byte reads as it does where nothing is listed, so nothing is
listed. -/
theorem constructMem_default : constructMem {} (defaultFont.map BitVec.toNat) [] = [] := by
  have hlen : (defaultFont.map BitVec.toNat).length = 80 := List.length_map _
  refine canonicalMemoriesAreEqualWhenTheyReadAlike _ _ (wf_constructMem _ _ _) rfl fun a => ?_
  rcases Nat.lt_or_ge a 80 with ha | ha
  · have hread := read_constructMem_font (program := []) Config.wf_default hlen (k := a) (by rwa [hlen])
    rw [List.getElem_map, BitVec.ofNat_toNat, BitVec.setWidth_eq, Nat.zero_add] at hread
    exact hread.trans (List.getD_eq_getElem _ _ ha).symm
  · have hread : (constructMem {} (defaultFont.map BitVec.toNat) []).read a = (emptyMem {}).read a :=
      read_constructMem_other hlen (.inr (by rwa [Nat.zero_add])) (Nat.lt_or_ge a 0x200)
    rw [hread, read_emptyMem_of_zero rfl (.inr ha)]
    exact (List.getD_eq_default _ _ ha).symm

/-! ## The registers of a construction (R501, step 6; R50) -/

theorem constructRegs_of_zero {s : State} (h : s.cfg.resetFill = .zero) : constructRegs s = s := by
  rw [constructRegs, h]

/-- The registers that the fill leaves open are all that it changes; SP is not one of them. -/
theorem constructRegs_frame (s : State) :
    constructRegs s = { s with
      v := (constructRegs s).v, i := (constructRegs s).i, stack := (constructRegs s).stack
      dt := (constructRegs s).dt, st := (constructRegs s).st, fb := (constructRegs s).fb } := by
  unfold constructRegs
  split <;> rfl

@[simp] theorem constructRegs_pc (s : State) : (constructRegs s).pc = s.pc := by rw [constructRegs_frame]
@[simp] theorem constructRegs_sp (s : State) : (constructRegs s).sp = s.sp := by rw [constructRegs_frame]
@[simp] theorem constructRegs_status (s : State) : (constructRegs s).status = s.status := by rw [constructRegs_frame]
@[simp] theorem constructRegs_reports (s : State) : (constructRegs s).reports = s.reports := by
  rw [constructRegs_frame]
@[simp] theorem constructRegs_ended (s : State) : (constructRegs s).ended = s.ended := by rw [constructRegs_frame]
@[simp] theorem constructRegs_cfg (s : State) : (constructRegs s).cfg = s.cfg := by rw [constructRegs_frame]

/-! ## Construct, a case for each outcome (R501 to R503) -/

theorem construct_of_bad_font (program : List Byte) (h : ¬fontOk cfg font = true) :
    construct cfg font program = (State.blank cfg).raiseFatal .fontMalformed := by
  rw [construct, if_pos (by simpa using h)]

theorem construct_of_long_program (hf : fontOk cfg font = true) (h : cfg.programMax < program.length) :
    construct cfg font program = (State.blank cfg).raiseFatal (.programTooLarge program.length) := by
  rw [construct, if_neg (by simpa using hf), if_pos h]

theorem construct_of_fits (hf : fontOk cfg font = true) (h : program.length ≤ cfg.programMax) :
    construct cfg font program =
      { constructRegs (State.blank cfg) with mem := constructMem cfg font program } := by
  rw [construct, if_neg (by simpa using hf), if_neg (Nat.not_lt.mpr h)]

/-! ## The invariant of a construction (R33) -/

theorem State.inWidths_blank (hwf : cfg.Wf) : (State.blank cfg).InWidths := by
  have hzero : ∀ w m : Nat, ∀ n ∈ List.replicate m 0, n < 2 ^ w := by
    intro w m n hn
    rw [List.eq_of_mem_replicate hn]
    exact Nat.two_pow_pos w
  exact ⟨hzero _ _, Nat.two_pow_pos _, hwf.pcOk_lt hwf.loadOffset, hzero _ _, Nat.two_pow_pos _, Nat.two_pow_pos _⟩

theorem State.inv_blank (hwf : cfg.Wf) : (State.blank cfg).Inv where
  cfgWf := hwf
  shaped := ⟨List.length_replicate, List.length_replicate, Nat.zero_le _, fbShaped_blankFb cfg⟩
  widths := State.inWidths_blank hwf
  memWf := rfl
  memWithin := rfl
  pcBound _ := hwf.loadOffset
  liveEntries _ := fun _ hk => absurd hk (Nat.not_lt_zero _)

/-- Open registers are cut to the session, so under both fills they have its sizes and widths. -/
theorem State.Inv.constructRegs {s : State} (h : s.Inv) (hsp : s.sp = 0) : (constructRegs s).Inv := by
  cases hfill : s.cfg.resetFill with
  | zero => rwa [constructRegs_of_zero hfill]
  | unknown =>
    obtain ⟨hv, hstack, _, hfb⟩ := shaped_fittedTo s.cfg (Config.atPowerOn 0)
    obtain ⟨wv, wi, _, wstack, wdt, wst⟩ := inWidths_fittedTo s.cfg (Config.atPowerOn 0)
    rw [Machine.constructRegs, hfill]
    exact { h with
      shaped := ⟨hv, hstack, h.shaped.sp, hfb⟩
      widths := ⟨wv, wi, h.widths.pc, wstack, wdt, wst⟩
      liveEntries := fun _ k hk => absurd (hsp ▸ hk) (Nat.not_lt_zero k) }

theorem State.Inv.withMem {s : State} (h : s.Inv) {m : Memory} (hm : Memory.wf m = true)
    (hin : Memory.within s.cfg.memSize m = true) : State.Inv { s with mem := m } :=
  { h with shaped := { h.shaped with }, widths := { h.widths with }, memWf := hm, memWithin := hin }

theorem construct_inv (hwf : cfg.Wf) (font : List Nat) (program : List Byte) : (construct cfg font program).Inv := by
  by_cases hf : fontOk cfg font = true
  · rcases Nat.lt_or_ge cfg.programMax program.length with hlong | hfit
    · rw [construct_of_long_program hf hlong]
      exact State.inv_raiseFatal hwf _
    · rw [construct_of_fits hf hfit]
      refine ((State.inv_blank hwf).constructRegs rfl).withMem (wf_constructMem cfg font program) ?_
      rw [constructRegs_cfg]
      exact within_constructMem hwf (fontOk_iff.mp hf).1 (hwf.le_programMax_iff.mp hfit)
  · rw [construct_of_bad_font program hf]
    exact State.inv_raiseFatal hwf _

end

/-! ## The operation that the host takes (R510; log 9) -/

theorem State.takeOp_of_cons {s : State} {op : HostOp} {rest : List HostOp} (h : s.schedule = op :: rest) :
    s.takeOp = (op, { s with schedule := rest }) := by
  rw [State.takeOp, h]

theorem State.takeOp_of_nil {s : State} (h : s.schedule = []) :
    s.takeOp = (Config.hostChoice s.free, { s with free := s.free + 1 }) := by
  rw [State.takeOp, h]

/-! ## Other timers

From a Running session every operation of the minimum core commutes with a change of the timers: one lemma per
operation, up to `State.cycle_withTimers`. An abort leaves timers of its own (R402), which the change does not
reach: `State.retimed`. -/

/-- The session with other timers (R42). -/
def State.withTimers (d e : Nat) (s : State) : State := { s with dt := d, st := e }

/-- What the change of the timers makes of a next state: other timers while it is Running, nothing in an abort. -/
def State.retimed (d e : Nat) (s : State) : State := if s.status = .running then s.withTimers d e else s

/-- The outcome with other timers: a fault or a refusal is the same. -/
def outcomeRetimed (d e : Nat) : Host.Outcome State Fault Refusal → Host.Outcome State Fault Refusal
  | .next t => .next (t.retimed d e)
  | .fault f => .fault f
  | .refused r => .refused r

section

variable (d e : Nat) {s : State}

theorem State.retimed_raiseFatal (s : State) (f : Fatal) : (s.raiseFatal f).retimed d e = s.raiseFatal f :=
  if_neg (by simp)

@[simp] theorem State.withTimers_cfg (s : State) : (s.withTimers d e).cfg = s.cfg := rfl
@[simp] theorem State.withTimers_i (s : State) : (s.withTimers d e).i = s.i := rfl
@[simp] theorem State.withTimers_pc (s : State) : (s.withTimers d e).pc = s.pc := rfl
@[simp] theorem State.withTimers_fb (s : State) : (s.withTimers d e).fb = s.fb := rfl
@[simp] theorem State.withTimers_randoms (s : State) : (s.withTimers d e).randoms = s.randoms := rfl
@[simp] theorem State.withTimers_free (s : State) : (s.withTimers d e).free = s.free := rfl
@[simp] theorem State.readV_withTimers (s : State) (x : Nibble) : (s.withTimers d e).readV x = s.readV x := rfl
@[simp] theorem State.memRead_withTimers (s : State) (a : Nat) : (s.withTimers d e).memRead a = s.memRead a := rfl

/-- A Running state with other timers, however it is written. -/
theorem State.eq_retimed {t u : State} (ht : t.status = .running) (hu : u = t.withTimers d e) : u = t.retimed d e :=
  hu.trans (if_pos ht).symm

/-- An instruction that answers a Running state commutes when its writes do. -/
theorem next_withTimers {t u : State} (ht : t.status = .running) (hu : u = t.withTimers d e) :
    Host.Outcome.next u = outcomeRetimed d e (.next t) :=
  congrArg Host.Outcome.next (State.eq_retimed d e ht hu)

/-! ### SetPC (R15), and the guard of the aliasing words (R264) -/

theorem State.setPC_withTimers (hs : s.status = .running) (v : Nat) :
    (s.withTimers d e).setPC v = (s.setPC v).retimed d e := by
  rcases s.setPC_cases v with ⟨hv, h⟩ | ⟨hv, h⟩ <;> rw [h]
  · exact State.eq_retimed d e hs ((s.withTimers d e).setPC_of_ok hv)
  · rw [State.retimed_raiseFatal]
    exact (s.withTimers d e).setPC_of_not_ok hv

theorem State.skipIf_withTimers (hs : s.status = .running) (c : Bool) :
    (s.withTimers d e).skipIf c = (s.skipIf c).retimed d e := by
  cases c with
  | false => exact State.eq_retimed d e hs rfl
  | true => exact s.setPC_withTimers d e hs _

theorem State.guardAlias_withTimers {run run' : State} (aliases : Bool) (h : run' = run.retimed d e) :
    (s.withTimers d e).guardAlias aliases run' = outcomeRetimed d e (s.guardAlias aliases run) := by
  rw [h, State.guardAlias, State.guardAlias, apply_ite (outcomeRetimed d e)]
  rfl

/-! ### The instructions with a case of their own -/

theorem State.drawRows_withTimers (s : State) (x0 y0 n r : Nat) (c : Canvas) :
    (s.withTimers d e).drawRows x0 y0 n r c = s.drawRows x0 y0 n r c := by
  induction n generalizing r c with
  | zero => rfl
  | succ n ih => simp only [State.drawRows, State.memRead_withTimers, State.withTimers_i, State.withTimers_cfg, ih]

/-- A sprite that is drawn leaves the session Running; one that reads past the end of memory aborts. -/
theorem State.drawSprite_withTimers (hs : s.status = .running) (x y n : Nibble) :
    orAbort (s.withTimers d e) ((s.withTimers d e).drawSprite x y n) =
      (orAbort s (s.drawSprite x y n)).retimed d e := by
  simp only [State.drawSprite, State.drawRows_withTimers, State.readV_withTimers, State.withTimers_cfg,
    State.withTimers_fb]
  split
  next => exact State.eq_retimed d e hs rfl
  next f _ => exact (s.retimed_raiseFatal d e f).symm

theorem State.shrReg_withTimers (hs : s.status = .running) (x y : Nibble) :
    (s.withTimers d e).shrReg x y = (s.shrReg x y).retimed d e := by
  simp only [State.shrReg, State.withTimers_cfg]
  split <;> exact State.eq_retimed d e hs rfl

theorem State.shlReg_withTimers (hs : s.status = .running) (x y : Nibble) :
    (s.withTimers d e).shlReg x y = (s.shlReg x y).retimed d e := by
  simp only [State.shlReg, State.withTimers_cfg]
  split <;> exact State.eq_retimed d e hs rfl

theorem exec_ret_withTimers (hs : s.status = .running) :
    exec .ret (s.withTimers d e) = outcomeRetimed d e (exec .ret s) := by
  cases h : s.sp with
  | zero =>
    rw [exec_ret_of_empty h, exec_ret_of_empty (s := s.withTimers d e) h]
    exact congrArg Host.Outcome.next (s.retimed_raiseFatal d e _).symm
  | succ k =>
    rw [exec_ret_of_succ h, exec_ret_of_succ (s := s.withTimers d e) h]
    exact congrArg Host.Outcome.next (State.setPC_withTimers (s := { s with sp := k }) d e hs _)

theorem exec_call_withTimers (hs : s.status = .running) (nnn : Addr) :
    exec (.call nnn) (s.withTimers d e) = outcomeRetimed d e (exec (.call nnn) s) := by
  rcases Nat.lt_or_ge s.sp s.cfg.stackDepth with h | h
  · rw [exec, execCall, State.push_of_lt (s := s.withTimers d e) _ h, exec, execCall, State.push_of_lt _ h]
    exact congrArg Host.Outcome.next (State.setPC_withTimers d e
      (s := { s with stack := tableSet 0 s.sp (keepBits s.cfg.stackWidth s.pc) s.stack, sp := s.sp + 1 }) hs _)
  · rw [exec_call_of_full nnn h, exec_call_of_full (s := s.withTimers d e) nnn h]
    exact next_withTimers d e hs rfl

theorem State.drawRandom_withTimers (s : State) :
    (s.withTimers d e).drawRandom = Prod.map id (State.withTimers d e) s.drawRandom := by
  simp only [State.drawRandom, State.withTimers_randoms, State.withTimers_free]
  split <;> rfl

theorem exec_rnd_withTimers (hs : s.status = .running) (x : Nibble) (nn : Byte) :
    exec (.rnd x nn) (s.withTimers d e) = outcomeRetimed d e (exec (.rnd x nn) s) := by
  have hrun : s.drawRandom.2.status = .running := by rw [s.drawRandom_frame]; exact hs
  rw [exec, execRnd, State.drawRandom_withTimers]
  exact next_withTimers d e (t := s.drawRandom.2.writeV x (s.drawRandom.1 &&& nn).toNat) hrun rfl

/-! ### exec and the cycle -/

/-- No instruction of the minimum core reads a timer. -/
theorem exec_withTimers {i : Instr} (hi : Instr.isCore i) (hs : s.status = .running) :
    exec i (s.withTimers d e) = outcomeRetimed d e (exec i s) := by
  cases i with
  | cls | unimpl _ | ldI _ => exact next_withTimers d e hs rfl
  | ldByte _ _ | addByte _ _ | ldReg _ _ | orReg _ _ | andReg _ _ | xorReg _ _ => exact next_withTimers d e hs rfl
  | jp _ | jpV0 _ => exact congrArg Host.Outcome.next (s.setPC_withTimers d e hs _)
  | seByte _ _ | sneByte _ _ | seReg _ _ | sneReg _ _ =>
    exact congrArg Host.Outcome.next (s.skipIf_withTimers d e hs _)
  | addReg _ _ | subReg _ _ | subn _ _ => exact s.guardAlias_withTimers d e _ (State.eq_retimed d e hs rfl)
  | shr x y => exact s.guardAlias_withTimers d e _ (s.shrReg_withTimers d e hs x y)
  | shl x y => exact s.guardAlias_withTimers d e _ (s.shlReg_withTimers d e hs x y)
  | drw x y n => exact s.guardAlias_withTimers d e _ (s.drawSprite_withTimers d e hs x y n)
  | ret => exact exec_ret_withTimers d e hs
  | call nnn => exact exec_call_withTimers d e hs nnn
  | rnd x nn => exact exec_rnd_withTimers d e hs x nn
  | skp _ | sknp _ | ldVxDT _ | ldVxK _ | ldDTVx _ | ldSTVx _ => simp [Instr.isCore, Instr.wf] at hi
  | addI _ | ldF _ | ldB _ | storeRegs _ | loadRegs _ => simp [Instr.isCore, Instr.wf] at hi

theorem State.trySetPC_withTimers (s : State) (v : Nat) :
    (s.withTimers d e).trySetPC v = (s.trySetPC v).map (State.withTimers d e) := by
  rw [State.trySetPC, State.trySetPC, apply_ite (Except.map _)]
  rfl

theorem State.fetch_withTimers (s : State) :
    (s.withTimers d e).fetch = s.fetch.map (Prod.map id (State.withTimers d e)) := by
  simp only [State.fetch, State.memRead_withTimers, State.withTimers_pc, State.trySetPC_withTimers]
  cases s.memRead s.pc with
  | error f => rfl
  | ok hi =>
    cases s.memRead (s.pc + 1) with
    | error f => rfl
    | ok lo => cases s.trySetPC (s.pc + 2) <;> rfl

/-- The result of a cycle of the minimum core does not depend on the timers (R510). -/
theorem State.cycle_withTimers (hext : s.cfg.extEF = false) (hs : s.status = .running) :
    (s.withTimers d e).cycle = outcomeRetimed d e s.cycle := by
  rw [State.cycle, State.cycle, State.fetch_withTimers, State.withTimers_cfg, hext]
  cases h : s.fetch with
  | error f => exact congrArg Host.Outcome.next (s.retimed_raiseFatal d e f).symm
  | ok p =>
    obtain ⟨_, ht, _⟩ := State.fetch_ok h
    have hrun : p.2.status = .running := by rw [ht]; exact hs
    exact exec_withTimers d e (decode_false_isCore p.1) hrun

end

/-! ## The statements of the family, settled -/

/-- Settles O41: Construct checks the font first, then the program. -/
theorem constructRejectsBadFontsAndLongPrograms : Obligations.ConstructRejectsBadFontsAndLongPrograms := by
  intro cfg font program hwf
  refine ⟨fun hbad => ?_, fun hlen hbytes hlong => ?_⟩
  · have hf : ¬fontOk cfg font = true := by
      rw [fontOk_iff]
      rintro ⟨hlen, hbytes⟩
      rcases hbad with hne | ⟨k, hk, hge⟩
      · exact hne hlen
      · exact Nat.not_lt.mpr hge (hbytes k hk)
    rw [construct_of_bad_font program hf]
    rfl
  · have hlong' : cfg.programMax < program.length := by
      rw [← Nat.not_le, hwf.le_programMax_iff]
      omega
    rw [construct_of_long_program (fontOk_iff.mpr ⟨hlen, hbytes⟩) hlong']
    rfl

/-- Settles O42: no load reaches over another, and Zero leaves the registers as they are blank. -/
theorem constructLoadsFontAndProgram : Obligations.ConstructLoadsFontAndProgram := by
  intro cfg font program hwf hlen hbytes hfit
  refine ⟨_, construct_of_fits (fontOk_iff.mpr ⟨hlen, hbytes⟩) (hwf.le_programMax_iff.mpr hfit),
    constructRegs_status _, constructRegs_reports _, constructRegs_pc _, constructRegs_sp _, constructRegs_cfg _,
    constructRegs_ended _, fun k hk => ?_, fun k hk => read_constructMem_program hk, fun hzero => ?_⟩
  · refine (congrArg BitVec.toNat (read_constructMem_font hwf hlen hk)).trans ?_
    rw [BitVec.toNat_ofNat]
    exact Nat.mod_eq_of_lt (hbytes _ (List.getElem_mem hk))
  · rw [constructRegs_of_zero (s := State.blank cfg) hzero]
    exact ⟨fun a ha hf hp => (read_constructMem_other hlen hf hp).trans (read_emptyMem_of_zero hzero (.inl ha)),
      fun _ => getD_replicate _ _ _, rfl, rfl, rfl, fun _ => getD_replicate _ _ _, pixel_blankFb cfg⟩

/-- Settles O53: the cycle commutes with a change of the timers, which an abort drops. -/
theorem timersDoNotInfluenceTheMinimumCore : Obligations.TimersDoNotInfluenceTheMinimumCore := by
  intro s t d e hext hs h
  have hcycle := State.cycle_withTimers d e hext hs
  rwa [h] at hcycle

/-- Settles O43: nothing is listed in the memory, and Zero leaves the registers as they are blank. -/
theorem resetIsConstructWithDefaults : Obligations.ResetIsConstructWithDefaults := by
  refine (construct_of_fits (by decide) (Nat.zero_le _)).trans ?_
  rw [constructMem_default]
  rfl

/-- Settles O45, by what Construct can give. -/
theorem constructEstablishesTheInvariant : Obligations.ConstructEstablishesTheInvariant :=
  ⟨State.inv_blank Config.wf_default, fun _ font program hwf => construct_inv hwf font program⟩

/-- Settles O56: a case for each state of the schedule. -/
theorem hostTakesTheNextOperation : Obligations.HostTakesTheNextOperation :=
  fun _ => ⟨fun _ _ h => State.takeOp_of_cons h, fun h => State.takeOp_of_nil h⟩

end Sys2Proof.Machine
